-- ==== Sys2Proof/Word.lean ====
section
/-! DEFINITION. The word, the register index and the line of text: the plain types every other file is
written over. Rules: 00_scope.md R6, R7; 10_state.md R21; 30_encoding.md R60. -/

namespace Sys2Proof

/-- A Word: 16 bits, read as a two's-complement integer (00_scope.md R6). -/
abbrev Word := BitVec 16

/-- A general register's index, 0 to 7 (10_state.md R21, 30_encoding.md R61). -/
abbrev RegIndex := Fin 8

/-- One line of assembly text, character by character: the external encoding of an instruction
(30_encoding.md R60). -/
abbrev Line := List Char

/-- `wrap16(n)`: the one Word congruent to the integer `n` modulo 2^16 (00_scope.md R6). -/
def wrap16 (n : Int) : Word := BitVec.ofInt 16 n

end Sys2Proof
end

