-- ==== Sys2Proof/Syntax.lean ====
section
/-! DEFINITION. The instructions as the source writes them (one constructor per row of
spec/opcode_table.json) and the decoded record the block holds. Rules: 30_encoding.md R61 to R67, R80 to R94. -/

namespace Sys2Proof

/-- The ten opcodes: eight primitive ones, HALT and FILL (00_scope.md R2, 30_encoding.md R61). -/
inductive Opcode where
  | add | addi | nand | lui | sw | lw | beq | jalr | halt | fill
deriving DecidableEq, Repr

/-- The operand shapes (30_encoding.md R63): `none` is the NONE of HALT and FILL. -/
inductive Format where
  | rrr | rri | ri | none
deriving DecidableEq, Repr

/-- One instruction as a line of source writes it: one constructor per row of spec/opcode_table.json.
Signed immediates and fill values are the integers of 30_encoding.md R64 and R66, the LUI immediate the
natural number of R65; their ranges are checked by `Instr.wellFormed`. -/
inductive Instr where
  /-- `add a,b,c` (R80, R101). -/
  | add (a b c : RegIndex)
  /-- `nand a,b,c` (R81, R103). -/
  | nand (a b c : RegIndex)
  /-- `addi a,b,i` (R82, R102). -/
  | addi (a b : RegIndex) (i : Int)
  /-- `lw a,b,i` (R83, R111). -/
  | lw (a b : RegIndex) (i : Int)
  /-- `sw a,b,i`: `a` is stored, `b` is the base (R84, R112). -/
  | sw (a b : RegIndex) (i : Int)
  /-- `beq a,b,i` (R85, R120). -/
  | beq (a b : RegIndex) (i : Int)
  /-- `jalr a,b`: `a` takes the link, `b` holds the target (R86, R121). -/
  | jalr (a b : RegIndex)
  /-- `jalr 0,0`: HALT or an ordinary JALR, as `JALR00_IS_HALT` says (R94, R131). -/
  | jalr00
  /-- `lui a,u` (R87, R104). -/
  | lui (a : RegIndex) (u : Nat)
  /-- `nop`, a pseudo-op for `add 0,0,0` (R88, R105). -/
  | nop
  /-- `halt` (R89, R130). -/
  | halt
  /-- `lli a,i`, a pseudo-op for `addi a,a,i` (R90, R106). -/
  | lli (a : RegIndex) (i : Int)
  /-- `.fill v` (R91, R132). -/
  | fill (v : Int)
deriving DecidableEq, Repr

/-- The decoded instruction record, the block's instruction word (30_encoding.md R61). -/
structure Record where
  opcode    : Opcode
  format    : Format
  regA      : RegIndex
  regB      : RegIndex
  regC      : RegIndex
  sImmed    : Int
  uImmed    : Nat
  fillValue : Int
  /-- The index of the line in the source; the pre-increment PC value (R67). -/
  address   : Nat
  /-- The trimmed line as written (R68); no rule reads it (10_state.md R38). -/
  text      : Line
deriving DecidableEq, Repr

/-- The bubble: ADD 0,0,0 at address 0 with text `add 0,0,0` (30_encoding.md R62, 44_pipeline.md R155). -/
def bubble : Record where
  opcode := .add
  format := .rrr
  regA := 0
  regB := 0
  regC := 0
  sImmed := 0
  uImmed := 0
  fillValue := 0
  address := 0
  text := ['a', 'd', 'd', ' ', '0', ',', '0', ',', '0']

end Sys2Proof
end

