-- ==== Sys2Proof/Config.lean ====
section
/-! DEFINITION. What is fixed for a run: the stages, the latency table `L`, the Boolean `JALR00_IS_HALT`
and the sizes of 00_scope.md R5; and the model's one free value. Rules: 00_scope.md R5, R10;
10_state.md R31, R34. -/

namespace Sys2Proof

/-- The five stages in order (00_scope.md R10). -/
inductive Stage where
  | ifetch | rr | ex | me | wb
deriving DecidableEq, Repr

/-- One row of the latency table: the ticks one opcode needs in each stage (10_state.md R31). -/
structure LatencyRow where
  ifetch : Nat
  rr     : Nat
  ex     : Nat
  me     : Nat
  wb     : Nat
deriving DecidableEq, Repr

/-- The latency table: one row per opcode (10_state.md R31). -/
structure LatencyTable where
  add  : LatencyRow
  addi : LatencyRow
  nand : LatencyRow
  lui  : LatencyRow
  sw   : LatencyRow
  lw   : LatencyRow
  beq  : LatencyRow
  jalr : LatencyRow
  halt : LatencyRow
  fill : LatencyRow
deriving DecidableEq, Repr

/-- The configuration of a run; no step changes it (10_state.md R20). -/
structure Config where
  /-- `L` (R31). -/
  latency     : LatencyTable
  /-- `JALR00_IS_HALT` (R34). -/
  jalr00IsHalt : Bool
deriving DecidableEq, Repr

/-- A row's entry for a stage. -/
def LatencyRow.at (row : LatencyRow) : Stage → Nat
  | .ifetch => row.ifetch
  | .rr => row.rr
  | .ex => row.ex
  | .me => row.me
  | .wb => row.wb

/-- A table's row for an opcode. -/
def LatencyTable.row (t : LatencyTable) : Opcode → LatencyRow
  | .add => t.add
  | .addi => t.addi
  | .nand => t.nand
  | .lui => t.lui
  | .sw => t.sw
  | .lw => t.lw
  | .beq => t.beq
  | .jalr => t.jalr
  | .halt => t.halt
  | .fill => t.fill

/-- `L[op][s]` (00_scope.md R10). -/
def LatencyTable.entry (t : LatencyTable) (op : Opcode) (st : Stage) : Nat := (t.row op).at st

/-- The five stages as a list, IF first. -/
def stages : List Stage := [.ifetch, .rr, .ex, .me, .wb]

/-- The ten opcodes as a list. -/
def opcodes : List Opcode := [.add, .addi, .nand, .lui, .sw, .lw, .beq, .jalr, .halt, .fill]

/-- Every entry is a positive integer, as 10_state.md R31 asks of a latency table. -/
def LatencyTable.positive (t : LatencyTable) : Bool :=
  opcodes.all fun op => stages.all fun st => decide (1 ≤ t.entry op st)

/-- The default row of ADD, ADDI, NAND, LUI and FILL (10_state.md R31). -/
def aluRow : LatencyRow := ⟨1, 1, 2, 1, 1⟩

/-- The default row of SW and LW (10_state.md R31). -/
def memoryRow : LatencyRow := ⟨1, 1, 2, 3, 1⟩

/-- The default row of BEQ, JALR and HALT (10_state.md R31). -/
def controlRow : LatencyRow := ⟨1, 1, 1, 1, 1⟩

/-- The default latency table (10_state.md R31). -/
def defaultLatency : LatencyTable where
  add := aluRow
  addi := aluRow
  nand := aluRow
  lui := aluRow
  sw := memoryRow
  lw := memoryRow
  beq := controlRow
  jalr := controlRow
  halt := controlRow
  fill := aluRow

/-- The configuration of a construction that is given no other (10_state.md R37). -/
def defaultConfig : Config := ⟨defaultLatency, true⟩

/-- `M`, the number of data words (00_scope.md R5, 10_state.md R33). -/
def dataSize : Nat := 1000

/-- The longest program the loader admits (10_state.md R32). -/
def maxProgram : Nat := 31768

/-- FREE VALUE (log entry 6, DESIGN CHOICE). The `address` that BEQ and JALR use when `exec` is asked
about a state whose RR slot holds no instruction. The spec gives an instruction outside the pipeline no
address, and no step asks for one. Nothing in Lean knows this number. -/
opaque Config.unplacedAddress : Nat

end Sys2Proof
end

