-- ==== Sys2Proof/WellFormed.lean ====
section
/-! DEFINITION. Which instructions the decoder can build, and which records are clean.
Rules: 30_encoding.md R62, R64 to R66, R72, R86, R94. -/

namespace Sys2Proof

/-- A signed 7-bit immediate (30_encoding.md R64). -/
def signedImmediateOk (i : Int) : Bool := decide (-64 ≤ i ∧ i ≤ 63)

/-- An unsigned 10-bit immediate (30_encoding.md R65). -/
def unsignedImmediateOk (u : Nat) : Bool := decide (u ≤ 1023)

/-- A signed 16-bit data word (30_encoding.md R66). -/
def fillValueOk (v : Int) : Bool := decide (-32768 ≤ v ∧ v ≤ 32767)

/-- The instructions a line of source can spell: every operand in its range (30_encoding.md R72), and the
operand pair 0,0 of JALR under its own constructor (R94). -/
def Instr.wellFormed : Instr → Bool
  | .add _ _ _ => true
  | .nand _ _ _ => true
  | .addi _ _ i => signedImmediateOk i
  | .lw _ _ i => signedImmediateOk i
  | .sw _ _ i => signedImmediateOk i
  | .beq _ _ i => signedImmediateOk i
  | .jalr a b => !(decide (a = 0) && decide (b = 0))
  | .jalr00 => true
  | .lui _ u => unsignedImmediateOk u
  | .nop => true
  | .halt => true
  | .lli _ i => signedImmediateOk i
  | .fill v => fillValueOk v

/-- The invariant of 30_encoding.md R62: the format is the opcode's, the fields the opcode does not use
are zero, and the ones it uses are in range. -/
def Record.clean (r : Record) : Bool :=
  match r.opcode with
  | .add => decide (r.format = .rrr ∧ r.sImmed = 0 ∧ r.uImmed = 0 ∧ r.fillValue = 0)
  | .nand => decide (r.format = .rrr ∧ r.sImmed = 0 ∧ r.uImmed = 0 ∧ r.fillValue = 0)
  | .addi => decide (r.format = .rri ∧ r.regC = 0 ∧ r.uImmed = 0 ∧ r.fillValue = 0) && signedImmediateOk r.sImmed
  | .lw => decide (r.format = .rri ∧ r.regC = 0 ∧ r.uImmed = 0 ∧ r.fillValue = 0) && signedImmediateOk r.sImmed
  | .sw => decide (r.format = .rri ∧ r.regC = 0 ∧ r.uImmed = 0 ∧ r.fillValue = 0) && signedImmediateOk r.sImmed
  | .beq => decide (r.format = .rri ∧ r.regC = 0 ∧ r.uImmed = 0 ∧ r.fillValue = 0) && signedImmediateOk r.sImmed
  | .jalr => decide (r.format = .rri ∧ r.regC = 0 ∧ r.sImmed = 0 ∧ r.uImmed = 0 ∧ r.fillValue = 0)
  | .lui => decide (r.format = .ri ∧ r.regB = 0 ∧ r.regC = 0 ∧ r.sImmed = 0 ∧ r.fillValue = 0) &&
      unsignedImmediateOk r.uImmed
  | .halt => decide (r.format = .none ∧ r.regA = 0 ∧ r.regB = 0 ∧ r.regC = 0 ∧ r.sImmed = 0 ∧ r.uImmed = 0 ∧
      r.fillValue = 0)
  | .fill => decide (r.format = .none ∧ r.regA = 0 ∧ r.regB = 0 ∧ r.regC = 0 ∧ r.sImmed = 0 ∧ r.uImmed = 0) &&
      fillValueOk r.fillValue

end Sys2Proof
end

