-- ==== Sys2Proof/Decode.lean ====
section
/-! DEFINITION. The decoder: a line of text to an instruction, an instruction to its record, a source to a
program image; and the encoder, which writes a well-formed instruction's line. Total on any characters;
what it does not accept it rejects by name. Rules: 30_encoding.md R60 to R98; 60_exceptions.md R180, R184. -/

namespace Sys2Proof

/-- Why a line is refused: the six decode errors of 30_encoding.md R93. Which of two applies where a line
has both is not observable (`InvalidSource` carries the line number only): log entry 9. -/
inductive DecodeError where
  | blank
  | grammar
  | unknownMnemonic
  | operandCount
  | malformedLiteral
  | outOfRange
deriving DecidableEq, Repr

/-- Why a load is refused (60_exceptions.md R180): `line` is 1-based (R184). -/
inductive LoadError where
  | invalidSource (line : Nat)
  | programTooLarge
deriving DecidableEq, Repr

/-! ### Lines -/

/-- The trim set: space, tab, LF, VT, FF, CR (30_encoding.md R70). -/
def isSpace (c : Char) : Bool :=
  c.toNat == 32 || c.toNat == 9 || c.toNat == 10 || c.toNat == 11 || c.toNat == 12 || c.toNat == 13

/-- The line without the whitespace at its end. -/
def trimEnd (l : Line) : Line := (l.reverse.dropWhile isSpace).reverse

/-- The line without surrounding whitespace (30_encoding.md R70). -/
def trim (l : Line) : Line := trimEnd (l.dropWhile isSpace)

/-- The pieces between the commas (30_encoding.md R71); always at least one. -/
def splitCommas : Line → List Line
  | [] => [[]]
  | c :: cs =>
    if c = ',' then [] :: splitCommas cs
    else match splitCommas cs with
      | [] => [[c]]
      | p :: ps => (c :: p) :: ps

/-- The mnemonic and the operand list of a trimmed line (30_encoding.md R71). -/
def splitLine (t : Line) : Except DecodeError (Line × List Line) :=
  if ' ' ∈ t then
    let mnemonic := t.takeWhile (· != ' ')
    let rest := (t.dropWhile (· != ' ')).drop 1
    if rest.isEmpty || rest.any isSpace then .error .grammar else .ok (mnemonic, splitCommas rest)
  else .ok (t, [])

/-! ### Literals -/

/-- The value of a decimal digit. -/
def digitValue (c : Char) : Option Nat :=
  if 48 ≤ c.toNat ∧ c.toNat ≤ 57 then some (c.toNat - 48) else none

/-- Decimal digits read after the digits that gave `acc`. -/
def parseDigits (acc : Nat) : Line → Option Nat
  | [] => some acc
  | c :: cs =>
    match digitValue c with
    | some d => parseDigits (acc * 10 + d) cs
    | none => none

/-- One or more decimal digits. -/
def parseNat : Line → Option Nat
  | [] => none
  | c :: cs => parseDigits 0 (c :: cs)

/-- Digits that were read, as an integer with its sign. -/
def withSign (negative : Bool) : Option Nat → Option Int
  | none => none
  | some n => some (if negative then -(n : Int) else (n : Int))

/-- An integer literal: an optional sign, then one or more digits (30_encoding.md R72). -/
def parseInt : Line → Option Int
  | [] => none
  | c :: cs =>
    if c = '+' then withSign false (parseNat cs)
    else if c = '-' then withSign true (parseNat cs)
    else withSign false (parseNat (c :: cs))

/-- A literal in its operand position's range (30_encoding.md R72). -/
def literalIn (lo hi : Int) (l : Line) : Except DecodeError Int :=
  match parseInt l with
  | none => .error .malformedLiteral
  | some v => if lo ≤ v ∧ v ≤ hi then .ok v else .error .outOfRange

/-- A register operand (30_encoding.md R73). -/
def registerOperand (l : Line) : Except DecodeError RegIndex :=
  match literalIn 0 7 l with
  | .error e => .error e
  | .ok v => .ok (Fin.ofNat 8 v.toNat)

/-- A signed immediate operand (30_encoding.md R64). -/
def signedOperand (l : Line) : Except DecodeError Int := literalIn (-64) 63 l

/-- An unsigned immediate operand (30_encoding.md R65). -/
def unsignedOperand (l : Line) : Except DecodeError Nat :=
  match literalIn 0 1023 l with
  | .error e => .error e
  | .ok v => .ok v.toNat

/-- A `.fill` operand (30_encoding.md R66). -/
def fillOperand (l : Line) : Except DecodeError Int := literalIn (-32768) 32767 l

/-! ### Operand shapes (30_encoding.md R74) -/

/-- No operands. -/
def noOperands (i : Instr) : List Line → Except DecodeError Instr
  | [] => .ok i
  | _ => .error .operandCount

/-- Three registers. -/
def threeRegisters (mk : RegIndex → RegIndex → RegIndex → Instr) : List Line → Except DecodeError Instr
  | [x, y, z] =>
    match registerOperand x, registerOperand y, registerOperand z with
    | .ok a, .ok b, .ok c => .ok (mk a b c)
    | .error e, _, _ => .error e
    | _, .error e, _ => .error e
    | _, _, .error e => .error e
  | _ => .error .operandCount

/-- Two registers and a signed immediate. -/
def twoRegistersSigned (mk : RegIndex → RegIndex → Int → Instr) : List Line → Except DecodeError Instr
  | [x, y, z] =>
    match registerOperand x, registerOperand y, signedOperand z with
    | .ok a, .ok b, .ok i => .ok (mk a b i)
    | .error e, _, _ => .error e
    | _, .error e, _ => .error e
    | _, _, .error e => .error e
  | _ => .error .operandCount

/-- Two registers. -/
def twoRegisters (mk : RegIndex → RegIndex → Instr) : List Line → Except DecodeError Instr
  | [x, y] =>
    match registerOperand x, registerOperand y with
    | .ok a, .ok b => .ok (mk a b)
    | .error e, _ => .error e
    | _, .error e => .error e
  | _ => .error .operandCount

/-- One register and an unsigned immediate. -/
def registerUnsigned (mk : RegIndex → Nat → Instr) : List Line → Except DecodeError Instr
  | [x, y] =>
    match registerOperand x, unsignedOperand y with
    | .ok a, .ok u => .ok (mk a u)
    | .error e, _ => .error e
    | _, .error e => .error e
  | _ => .error .operandCount

/-- One register and a signed immediate. -/
def registerSigned (mk : RegIndex → Int → Instr) : List Line → Except DecodeError Instr
  | [x, y] =>
    match registerOperand x, signedOperand y with
    | .ok a, .ok i => .ok (mk a i)
    | .error e, _ => .error e
    | _, .error e => .error e
  | _ => .error .operandCount

/-- One fill value. -/
def oneFillValue (mk : Int → Instr) : List Line → Except DecodeError Instr
  | [x] =>
    match fillOperand x with
    | .ok v => .ok (mk v)
    | .error e => .error e
  | _ => .error .operandCount

/-- A JALR by its operand values: the pair 0,0 is the row `jalr 0,0` (30_encoding.md R94). -/
def jalrOf (a b : RegIndex) : Instr := if a = 0 ∧ b = 0 then .jalr00 else .jalr a b

/-! ### Mnemonics (30_encoding.md R75) -/

/-- The twelve mnemonics a line can start with. -/
inductive Mnemonic where
  | add | nand | addi | lw | sw | beq | jalr | lui | nop | halt | lli | fill
deriving DecidableEq, Repr

/-- A mnemonic's one spelling, in lower case. -/
def Mnemonic.spelling : Mnemonic → Line
  | .add => ['a', 'd', 'd']
  | .nand => ['n', 'a', 'n', 'd']
  | .addi => ['a', 'd', 'd', 'i']
  | .lw => ['l', 'w']
  | .sw => ['s', 'w']
  | .beq => ['b', 'e', 'q']
  | .jalr => ['j', 'a', 'l', 'r']
  | .lui => ['l', 'u', 'i']
  | .nop => ['n', 'o', 'p']
  | .halt => ['h', 'a', 'l', 't']
  | .lli => ['l', 'l', 'i']
  | .fill => ['.', 'f', 'i', 'l', 'l']

/-- All mnemonics. -/
def mnemonics : List Mnemonic := [.add, .nand, .addi, .lw, .sw, .beq, .jalr, .lui, .nop, .halt, .lli, .fill]

/-- The mnemonic a spelling names, if any (30_encoding.md R75, R92). -/
def readMnemonic (l : Line) : Option Mnemonic := mnemonics.find? fun m => decide (m.spelling = l)

/-- The operands a mnemonic takes and the instruction they make (30_encoding.md R80 to R91). -/
def readOperands : Mnemonic → List Line → Except DecodeError Instr
  | .add, ops => threeRegisters .add ops
  | .nand, ops => threeRegisters .nand ops
  | .addi, ops => twoRegistersSigned .addi ops
  | .lw, ops => twoRegistersSigned .lw ops
  | .sw, ops => twoRegistersSigned .sw ops
  | .beq, ops => twoRegistersSigned .beq ops
  | .jalr, ops => twoRegisters jalrOf ops
  | .lui, ops => registerUnsigned .lui ops
  | .nop, ops => noOperands .nop ops
  | .halt, ops => noOperands .halt ops
  | .lli, ops => registerSigned .lli ops
  | .fill, ops => oneFillValue .fill ops

/-! ### The decoder -/

/-- The instruction of a trimmed line. -/
def decodeTrimmed (t : Line) : Except DecodeError Instr :=
  if t.isEmpty then .error .blank
  else match splitLine t with
    | .error e => .error e
    | .ok (m, ops) =>
      match readMnemonic m with
      | none => .error .unknownMnemonic
      | some mn => readOperands mn ops

/-- The instruction a line of source spells (30_encoding.md R70 to R94). -/
def decodeLine (l : Line) : Except DecodeError Instr := decodeTrimmed (trim l)

/-- A record of three registers. -/
def recordRRR (op : Opcode) (a b c : RegIndex) (addr : Nat) (text : Line) : Record :=
  ⟨op, .rrr, a, b, c, 0, 0, 0, addr, text⟩

/-- A record of two registers and a signed immediate. -/
def recordRRI (op : Opcode) (a b : RegIndex) (i : Int) (addr : Nat) (text : Line) : Record :=
  ⟨op, .rri, a, b, 0, i, 0, 0, addr, text⟩

/-- A HALT record. -/
def recordHalt (addr : Nat) (text : Line) : Record := ⟨.halt, .none, 0, 0, 0, 0, 0, 0, addr, text⟩

/-- The record the decoder builds for an instruction, the pseudo-ops expanded (30_encoding.md R80 to R91,
R94). `haltPair` is `JALR00_IS_HALT`. -/
def Instr.record (i : Instr) (haltPair : Bool) (addr : Nat) (text : Line) : Record :=
  match i with
  | .add a b c => recordRRR .add a b c addr text
  | .nand a b c => recordRRR .nand a b c addr text
  | .addi a b i => recordRRI .addi a b i addr text
  | .lw a b i => recordRRI .lw a b i addr text
  | .sw a b i => recordRRI .sw a b i addr text
  | .beq a b i => recordRRI .beq a b i addr text
  | .jalr a b => recordRRI .jalr a b 0 addr text
  | .jalr00 => if haltPair then recordHalt addr text else recordRRI .jalr 0 0 0 addr text
  | .lui a u => ⟨.lui, .ri, a, 0, 0, 0, u, 0, addr, text⟩
  | .nop => recordRRR .add 0 0 0 addr text
  | .halt => recordHalt addr text
  | .lli a i => recordRRI .addi a a i addr text
  | .fill v => ⟨.fill, .none, 0, 0, 0, 0, 0, v, addr, text⟩

/-- The record of one source line at an address, with the trimmed line as its text
(30_encoding.md R67, R68). -/
def decodeRecord (haltPair : Bool) (l : Line) (addr : Nat) : Except DecodeError Record :=
  match decodeLine l with
  | .error e => .error e
  | .ok i => .ok (i.record haltPair addr (trim l))

/-- The records of the lines from index `addr` on, or the first failing line (30_encoding.md R69). -/
def decodeSource (haltPair : Bool) : Nat → List Line → Except LoadError (List Record)
  | _, [] => .ok []
  | addr, l :: ls =>
    match decodeRecord haltPair l addr with
    | .error _ => .error (.invalidSource (addr + 1))
    | .ok r =>
      match decodeSource haltPair (addr + 1) ls with
      | .error e => .error e
      | .ok rs => .ok (r :: rs)

/-- The program image of a source: refused whole if it is too long or if a line fails
(30_encoding.md R69). -/
def loadSource (haltPair : Bool) (lines : List Line) : Except LoadError (List Record) :=
  if maxProgram < lines.length then .error .programTooLarge else decodeSource haltPair 0 lines

/-! ### From the record back to the instruction the execute algebra sees -/

/-- The core instruction of a record, by its opcode alone: "the execute algebra and pipeline see only the
primitive opcode set plus HALT and FILL" (30_encoding.md R98). The text is not read (10_state.md R38). -/
def Record.instr (r : Record) : Instr :=
  match r.opcode with
  | .add => .add r.regA r.regB r.regC
  | .nand => .nand r.regA r.regB r.regC
  | .addi => .addi r.regA r.regB r.sImmed
  | .lui => .lui r.regA r.uImmed
  | .sw => .sw r.regA r.regB r.sImmed
  | .lw => .lw r.regA r.regB r.sImmed
  | .beq => .beq r.regA r.regB r.sImmed
  | .jalr => .jalr r.regA r.regB
  | .halt => .halt
  | .fill => .fill r.fillValue

/-! ### The encoder: one canonical line per instruction (log entry 10) -/

/-- The character of a decimal digit. -/
def digitChar (d : Nat) : Char := Char.ofNat (48 + d)

/-- The decimal digits of `n`, with fuel: `n + 1` is always enough. -/
def encodeDigits : Nat → Nat → Line
  | 0, _ => []
  | fuel + 1, n => if n < 10 then [digitChar n] else encodeDigits fuel (n / 10) ++ [digitChar (n % 10)]

/-- A natural number in decimal, without leading zeros. -/
def encodeNat (n : Nat) : Line := encodeDigits (n + 1) n

/-- An integer in decimal, with a sign only if it is negative. -/
def encodeInt (v : Int) : Line := if v < 0 then '-' :: encodeNat v.natAbs else encodeNat v.natAbs

/-- Operands joined by commas. -/
def joinCommas : List Line → Line
  | [] => []
  | [x] => x
  | x :: y :: xs => x ++ ',' :: joinCommas (y :: xs)

/-- A mnemonic, one space, and its operands. -/
def encodeWith (m : Mnemonic) (ops : List Line) : Line := m.spelling ++ ' ' :: joinCommas ops

/-- A register operand's text. -/
def encodeRegister (r : RegIndex) : Line := encodeNat r.val

/-- The line that spells an instruction (30_encoding.md R98). -/
def encode : Instr → Line
  | .add a b c => encodeWith .add [encodeRegister a, encodeRegister b, encodeRegister c]
  | .nand a b c => encodeWith .nand [encodeRegister a, encodeRegister b, encodeRegister c]
  | .addi a b i => encodeWith .addi [encodeRegister a, encodeRegister b, encodeInt i]
  | .lw a b i => encodeWith .lw [encodeRegister a, encodeRegister b, encodeInt i]
  | .sw a b i => encodeWith .sw [encodeRegister a, encodeRegister b, encodeInt i]
  | .beq a b i => encodeWith .beq [encodeRegister a, encodeRegister b, encodeInt i]
  | .jalr a b => encodeWith .jalr [encodeRegister a, encodeRegister b]
  | .jalr00 => encodeWith .jalr [encodeRegister 0, encodeRegister 0]
  | .lui a u => encodeWith .lui [encodeRegister a, encodeNat u]
  | .nop => Mnemonic.spelling .nop
  | .halt => Mnemonic.spelling .halt
  | .lli a i => encodeWith .lli [encodeRegister a, encodeInt i]
  | .fill v => encodeWith .fill [encodeInt v]

/-! ### Bits as text (log entry 1) -/

/-- The lowest `n` bytes of `w`, the least significant first. -/
def lowBytes : Nat → Nat → List Nat
  | 0, _ => []
  | n + 1, w => (w % 256) :: lowBytes n (w / 256)

/-- The bits of `w` as the characters of a line: character k has code bits 8k+7..8k, and zero bytes at the
end are no characters (log entry 1: the spec defines no binary encoding). -/
def lineOfBits (nbits w : Nat) : Line :=
  (((lowBytes ((nbits + 7) / 8) w).reverse.dropWhile (· == 0)).reverse).map Char.ofNat

/-- The instruction the decoder reads from an instruction whose bits are `w`, as the host numbers them. -/
def decodeTableWord (nbits w : Nat) : Option Instr :=
  match decodeLine (lineOfBits nbits w) with
  | .ok i => some i
  | .error _ => none

end Sys2Proof
end

