-- ==== Sys2Proof/Machine/State.lean ====
section
/-! DEFINITION. The state of the block, the reasons a machine can stop, and the state after reset.
Rules: 10_state.md R20 to R37; 70_reset_and_hazards.md R210. -/

namespace Sys2Proof.Machine

/-- The two run-time faults of the spec (60_exceptions.md R180). No step answers `Outcome.fault` with one:
the spec gives a fault an effect (44_pipeline.md R154), so a faulting tick answers a next state whose
`status` is `fault` of this kind, and every later step keeps it (R162). Log entry 4. -/
inductive Fault where
  /-- Raised by LW at WB and by SW at ME when the effective address is negative or at least N + M
  (60_exceptions.md R182). Safe: the spec's own stop. -/
  | addressOutOfRange
  /-- Raised by a FILL record that becomes ready in WB (60_exceptions.md R183). Safe: the spec's own stop. -/
  | fatalMisexecution
deriving DecidableEq, Repr

/-- Why an instruction could have no meaning. No arm of `exec` and no step answers a refusal. -/
inductive Refusal where
  /-- An instruction with no meaning yet. Nobody raises it: every row of the table has its meaning. Safe. -/
  | notModelled (mnemonic : String)
deriving DecidableEq, Repr

/-- The status `step()` returns (10_state.md R30). -/
inductive Status where
  | running
  | halted
  | drained
  | fault (kind : Fault)
deriving DecidableEq, Repr

/-- A pipeline slot (10_state.md R27): `ce` is cycles_elapsed, `cn` is cycles_required, `fired` says that
the effect bound to this stage has been applied in this stay. -/
inductive Slot where
  | empty
  | occ (record : Record) (ce cn : Nat) (fired : Bool)
deriving DecidableEq, Repr

/-- The five slots, one per stage (10_state.md R27). -/
structure Slots where
  ifetch : Slot
  rr     : Slot
  ex     : Slot
  me     : Slot
  wb     : Slot
deriving DecidableEq, Repr

/-- One listed word of the data region: its index k in `data[0..M)`, and the word. The memory has no bytes
(20_memory.md R44), so a cell holds a Word (log entry 3). -/
abbrev DataCell := Nat × Word

/-- The data region `data[0..M)` (10_state.md R33), listed sparsely: an index that is not listed reads as
0, the value at construction (R37). -/
abbrev Memory := List DataCell

/-- The canonical form: indices strictly rising and below M, no listed word equal to what an unlisted
index reads as. -/
def Memory.wf (m : Memory) : Bool :=
  decide (m.Pairwise fun c d => c.1 < d.1) && m.all fun c => decide (c.1 < dataSize ∧ c.2 ≠ 0)

/-- The complete state of the block (10_state.md R20) and its configuration (R31, R34). -/
structure State where
  /-- `R[0..7]` (R21). -/
  regs   : Vector Word 8
  /-- `PC` (R23). -/
  pc     : Word
  /-- `source[0..N)` (R32); N is its length. -/
  source : List Record
  /-- `data[0..M)` (R33). -/
  data   : Memory
  /-- `slot[0..4]` (R27). -/
  slots  : Slots
  /-- `cycle` (R29). -/
  cycle  : Nat
  /-- `status` (R30). -/
  status : Status
  /-- `L` and `JALR00_IS_HALT` (R31, R34). -/
  config : Config
deriving DecidableEq, Repr

/-- All five slots Empty. -/
def Slots.allEmpty : Slots := ⟨.empty, .empty, .empty, .empty, .empty⟩

/-- The state after `Pipeline.new` of a program image under a configuration (10_state.md R37). -/
def State.construct (config : Config) (source : List Record) : State where
  regs := Vector.replicate 8 0
  pc := 0
  source := source
  data := []
  slots := Slots.allEmpty
  cycle := 0
  status := .running
  config := config

/-- The machine right after reset: construction (70_reset_and_hazards.md R210) with the default
configuration and no program loaded, N = 0 (log entry 8). -/
def State.reset : State := State.construct defaultConfig []

end Sys2Proof.Machine
end

