-- ==== Sys2Proof/Machine/Operands.lean ====
section
/-! DEFINITION. The operand forms: registers, immediates, the LUI operand, the effective address, the link
and the branch target. Rules: 00_scope.md R6, R7; 10_state.md R21; 30_encoding.md R64, R65;
41_loadstore.md R110; 42_control.md R120, R121. -/

namespace Sys2Proof.Machine

/-- `x[i]`: register 0 reads as 0 (10_state.md R21). -/
def State.readReg (s : State) (i : RegIndex) : Word := if i = 0 then 0 else s.regs[i]

/-- `x[i] <- v`: a write to register 0 is discarded (10_state.md R21). -/
def State.writeReg (s : State) (i : RegIndex) (v : Word) : State :=
  if i = 0 then s else { s with regs := s.regs.set i v }

/-- `sext_16(i)`: the Word with the integer value of a signed immediate (00_scope.md R6). -/
def sext16 (i : Int) : Word := BitVec.ofInt 16 i

/-- The LUI operand: `wrap16(u << 6)` (30_encoding.md R65). -/
def upperImmediate (u : Nat) : Word := BitVec.ofNat 16 (u * 64)

/-- The effective address of LW and SW: `wrap16(x[b] + sext_16(i))` (41_loadstore.md R110). -/
def State.effectiveAddress (s : State) (b : RegIndex) (i : Int) : Word := s.readReg b + sext16 i

/-- The link of a JALR at `addr`: `wrap16(address + 1)` (42_control.md R121). -/
def linkValue (addr : Nat) : Word := BitVec.ofNat 16 (addr + 1)

/-- The target of a BEQ at `addr`: `wrap16(address + 1 + sext_16(i))` (42_control.md R120). -/
def branchTarget (addr : Nat) (i : Int) : Word := BitVec.ofNat 16 (addr + 1) + sext16 i

end Sys2Proof.Machine
end

