-- ==== Sys2Proof/Machine/Flags.lean ====
section
/-! DEFINITION. The block has no flags, condition codes or predicates (10_state.md R25): nothing is
computed here but the one condition an instruction tests, BEQ's comparison of two registers. -/

namespace Sys2Proof.Machine

/-- BEQ's condition: whole Words are equal, so signed and unsigned equality coincide (42_control.md R120). -/
def State.registersEqual (s : State) (a b : RegIndex) : Bool := s.readReg a == s.readReg b

end Sys2Proof.Machine
end

