-- ==== Sys2Proof/Machine/Ops.lean ====
section
/-! DEFINITION. The shared operations: data words, the unified address space, fetch, slots, write-back,
control transfer with its squash, halting, and taking a fault. There is no trap entry and no return from
one: a fault is terminal (60_exceptions.md R187, R191). -/

namespace Sys2Proof.Machine

/-! ### The data region -/

/-- `data[k]`: 0 where nothing is listed (10_state.md R33). -/
def Memory.read : Memory → Nat → Word
  | [], _ => 0
  | (j, w) :: m, k => if j = k then w else Memory.read m k

/-- The list without index `k`. -/
def Memory.erase (m : Memory) (k : Nat) : Memory := m.filter fun c => decide (c.1 ≠ k)

/-- The list with `v` at `k`, before the first larger index. -/
def Memory.insert (k : Nat) (v : Word) : Memory → Memory
  | [] => [(k, v)]
  | c :: m => if k < c.1 then (k, v) :: c :: m else c :: Memory.insert k v m

/-- `data[k] <- v`, in the canonical form: a 0 is not listed. -/
def Memory.write (m : Memory) (k : Nat) (v : Word) : Memory :=
  if v = 0 then Memory.erase m k else Memory.insert k v (Memory.erase m k)

/-! ### The unified address space (20_memory.md R40) -/

/-- `N`, the number of records loaded. -/
def State.programSize (s : State) : Nat := s.source.length

/-- Address `a` refers to nothing: negative, or at least N + M (20_memory.md R40). -/
def State.outOfRange (s : State) (a : Word) : Bool :=
  decide (a.toInt < 0 ∨ (s.programSize : Int) + (dataSize : Int) ≤ a.toInt)

/-- What LW reads of a record: a FILL carries its word, any other record reads as 0 (20_memory.md R41). -/
def Record.asData (r : Record) : Word :=
  match r.opcode with
  | .fill => wrap16 r.fillValue
  | _ => 0

/-- The word a readable address holds: a program record's data reading below N, a data word from N on. -/
def State.wordAt (s : State) (a : Nat) : Word :=
  match s.source[a]? with
  | some r => Record.asData r
  | none => Memory.read s.data (a - s.programSize)

/-- `MemRead(a, 1)`: nothing where the access raises AddressOutOfRange (20_memory.md R41). -/
def State.memRead (s : State) (a : Word) : Option Word :=
  if s.outOfRange a then none else some (s.wordAt a.toNat)

/-- `MemWrite(a, 1, v)`: nothing where the access raises AddressOutOfRange; a write below N is ignored
(20_memory.md R42). -/
def State.memWrite (s : State) (a v : Word) : Option State :=
  if s.outOfRange a then none
  else if a.toNat < s.programSize then some s
  else some { s with data := Memory.write s.data (a.toNat - s.programSize) v }

/-- `Fetch(p)`: the record at program index `u16(p)`, or nothing (20_memory.md R43). -/
def State.fetch (s : State) (p : Word) : Option Record := s.source[p.toNat]?

/-! ### Slots -/

/-- `slot[s]`. -/
def Slots.get (t : Slots) : Stage → Slot
  | .ifetch => t.ifetch
  | .rr => t.rr
  | .ex => t.ex
  | .me => t.me
  | .wb => t.wb

/-- `slot[s] <- x`. -/
def Slots.put (t : Slots) (st : Stage) (x : Slot) : Slots :=
  match st with
  | .ifetch => { t with ifetch := x }
  | .rr => { t with rr := x }
  | .ex => { t with ex := x }
  | .me => { t with me := x }
  | .wb => { t with wb := x }

/-- The state's slot of a stage. -/
def State.slot (s : State) (st : Stage) : Slot := s.slots.get st

/-- The state with one slot replaced. -/
def State.setSlot (s : State) (st : Stage) (x : Slot) : State := { s with slots := s.slots.put st x }

/-- `L[op][s]` of the run's table. -/
def State.latencyOf (s : State) (op : Opcode) (st : Stage) : Nat := s.config.latency.entry op st

/-- A record entering a stage: `Occ(I, 0, L[I.opcode][s], false)` (44_pipeline.md R148). -/
def State.entering (s : State) (r : Record) (st : Stage) : Slot := .occ r 0 (s.latencyOf r.opcode st) false

/-- The `address` field of the instruction in RR, which BEQ and JALR use (10_state.md R23). With an empty
RR slot, which no step presents to them, a free value (log entry 6). -/
def State.controlAddress (s : State) : Nat :=
  match s.slots.rr with
  | .occ r _ _ _ => r.address
  | .empty => Config.unplacedAddress

/-! ### Ending a tick early -/

/-- Taking a fault (44_pipeline.md R154, 60_exceptions.md R181): the status becomes `Fault(kind)`, the
cycle counter counts the tick, and nothing else changes. Nothing is saved and the pc goes nowhere (R187). -/
def State.takeFault (s : State) (kind : Fault) : State := { s with status := .fault kind, cycle := s.cycle + 1 }

/-- HALT retiring (44_pipeline.md R153): WB is cleared, the status becomes `Halted`, the tick is counted. -/
def State.halt (s : State) : State :=
  { s with slots := s.slots.put .wb .empty, status := .halted, cycle := s.cycle + 1 }

/-! ### Control transfer -/

/-- `squash()` (44_pipeline.md R155): the IF occupant becomes the bubble and keeps its counters; an empty
IF takes a bubble that has just entered. -/
def State.squash (s : State) : State :=
  match s.slots.ifetch with
  | .occ _ ce cn _ => s.setSlot .ifetch (.occ bubble ce cn false)
  | .empty => s.setSlot .ifetch (s.entering bubble .ifetch)

/-- A committed transfer: the pc takes the target, then the squash (42_control.md R120, R121). -/
def State.jumpTo (s : State) (target : Word) : State := State.squash { s with pc := target }

/-! ### Memory instructions -/

/-- The effect of a load: read, then write the register unless the read faults (41_loadstore.md R111). -/
def State.load (s : State) (a : RegIndex) (addr : Word) : State :=
  match s.memRead addr with
  | none => s.takeFault .addressOutOfRange
  | some v => s.writeReg a v

/-- The effect of a store: write the word unless the write faults (41_loadstore.md R112). -/
def State.store (s : State) (addr v : Word) : State :=
  match s.memWrite addr v with
  | none => s.takeFault .addressOutOfRange
  | some t => t

/-- The effect of a JALR at its address: link first, then the jump to the register as it then reads
(42_control.md R121). -/
def State.jumpAndLink (s : State) (a b : RegIndex) : State :=
  let linked := s.writeReg a (linkValue s.controlAddress)
  linked.jumpTo (linked.readReg b)

end Sys2Proof.Machine
end

