-- ==== Sys2Proof/Machine/Alu.lean ====
section
/-! DEFINITION. ADD, ADDI, NAND, LUI and the pseudo-ops `nop` and `lli`: what each does at WB.
Rules: 40_alu.md R100 to R106. -/

namespace Sys2Proof.Machine

/-- The sum of a register and a signed immediate, written back (40_alu.md R102). -/
def State.addImmediate (s : State) (a b : RegIndex) (i : Int) : State := s.writeReg a (s.readReg b + sext16 i)

/-- The sum of two registers, written back (40_alu.md R101). -/
def State.addRegisters (s : State) (a b c : RegIndex) : State := s.writeReg a (s.readReg b + s.readReg c)

/-- ADD at WB (40_alu.md R101). -/
def execAdd (a b c : RegIndex) (s : State) : Host.Outcome State Fault Refusal := .next (s.addRegisters a b c)

/-- ADDI at WB (40_alu.md R102). -/
def execAddi (a b : RegIndex) (i : Int) (s : State) : Host.Outcome State Fault Refusal :=
  .next (s.addImmediate a b i)

/-- NAND at WB (40_alu.md R103). -/
def execNand (a b c : RegIndex) (s : State) : Host.Outcome State Fault Refusal :=
  .next (s.writeReg a (~~~(s.readReg b &&& s.readReg c)))

/-- LUI at WB (40_alu.md R104). -/
def execLui (a : RegIndex) (u : Nat) (s : State) : Host.Outcome State Fault Refusal :=
  .next (s.writeReg a (upperImmediate u))

/-- `nop`: ADD 0,0,0 at WB (40_alu.md R105). -/
def execNop (s : State) : Host.Outcome State Fault Refusal := .next (s.addRegisters 0 0 0)

/-- `lli a,i`: ADDI a,a,i at WB (40_alu.md R106). -/
def execLli (a : RegIndex) (i : Int) (s : State) : Host.Outcome State Fault Refusal :=
  .next (s.addImmediate a a i)

end Sys2Proof.Machine
end

