-- ==== Sys2Proof/Machine/Control.lean ====
section
/-! DEFINITION. BEQ and JALR at RR, and the row `jalr 0,0`. Rules: 42_control.md R120 to R126;
43_halt_fill.md R131. -/

namespace Sys2Proof.Machine

/-- BEQ at RR: if the registers are equal, the transfer; else no effect (42_control.md R120). -/
def execBeq (a b : RegIndex) (i : Int) (s : State) : Host.Outcome State Fault Refusal :=
  .next (if s.registersEqual a b then s.jumpTo (branchTarget s.controlAddress i) else s)

/-- JALR at RR: link, jump, squash (42_control.md R121). -/
def execJalr (a b : RegIndex) (s : State) : Host.Outcome State Fault Refusal := .next (s.jumpAndLink a b)

/-- `jalr 0,0`: HALT at WB when `JALR00_IS_HALT`, else a JALR with no link to R0 (43_halt_fill.md R131). -/
def execJalr00 (s : State) : Host.Outcome State Fault Refusal :=
  .next (if s.config.jalr00IsHalt then s.halt else s.jumpAndLink 0 0)

end Sys2Proof.Machine
end

