-- ==== Sys2Proof/Machine/HaltFill.lean ====
section
/-! DEFINITION. HALT and FILL at WB. Rules: 43_halt_fill.md R130, R132. -/

namespace Sys2Proof.Machine

/-- HALT at WB (43_halt_fill.md R130). -/
def execHalt (s : State) : Host.Outcome State Fault Refusal := .next s.halt

/-- FILL at WB: it raises FatalMisexecution, whatever its value (43_halt_fill.md R132). -/
def execFill (_v : Int) (s : State) : Host.Outcome State Fault Refusal := .next (s.takeFault .fatalMisexecution)

end Sys2Proof.Machine
end

