-- ==== Sys2Proof/Machine/LoadStore.lean ====
section
/-! DEFINITION. LW at WB and SW at ME. Rules: 41_loadstore.md R110 to R113. -/

namespace Sys2Proof.Machine

/-- LW at WB: address, read and register write (41_loadstore.md R111). -/
def execLw (a b : RegIndex) (i : Int) (s : State) : Host.Outcome State Fault Refusal :=
  .next (s.load a (s.effectiveAddress b i))

/-- SW at ME: address and memory write of register `a` (41_loadstore.md R112). -/
def execSw (a b : RegIndex) (i : Int) (s : State) : Host.Outcome State Fault Refusal :=
  .next (s.store (s.effectiveAddress b i) (s.readReg a))

end Sys2Proof.Machine
end

