-- ==== Sys2Proof/Machine/Dispatch.lean ====
section
/-! DEFINITION. The execute algebra: one arm per instruction, each a call of its meaning. `exec i s` applies
the whole effect of `i` at its one effect stage (44_pipeline.md R150) to the live state `s`, with `i` as the
occupant of that stage; the tick of Pipeline.lean says when. -/

namespace Sys2Proof.Machine

def exec (i : Instr) (s : State) : Host.Outcome State Fault Refusal :=
  match i with
  | .add a b c => Sys2Proof.Machine.execAdd a b c s
  | .nand a b c => Sys2Proof.Machine.execNand a b c s
  | .addi a b n => Sys2Proof.Machine.execAddi a b n s
  | .lw a b n => Sys2Proof.Machine.execLw a b n s
  | .sw a b n => Sys2Proof.Machine.execSw a b n s
  | .beq a b n => Sys2Proof.Machine.execBeq a b n s
  | .jalr a b => Sys2Proof.Machine.execJalr a b s
  | .jalr00 => Sys2Proof.Machine.execJalr00 s
  | .lui a u => Sys2Proof.Machine.execLui a u s
  | .nop => Sys2Proof.Machine.execNop s
  | .halt => Sys2Proof.Machine.execHalt s
  | .lli a n => Sys2Proof.Machine.execLli a n s
  | .fill v => Sys2Proof.Machine.execFill v s

end Sys2Proof.Machine
end

