-- ==== Sys2Proof/Machine/Pipeline.lean ====
section
/-! DEFINITION. The pipeline driver: effect binding, one stage's turn, the walk WB to IF, refill, counters,
termination, the complete tick, and the loading of one line. Rules: 44_pipeline.md R144 to R162. -/

namespace Sys2Proof.Machine

/-- The one stage an opcode's effect is bound to; no other pair has an effect (44_pipeline.md R150). -/
def effectStage : Opcode → Stage
  | .beq => .rr
  | .jalr => .rr
  | .sw => .me
  | .add => .wb
  | .addi => .wb
  | .nand => .wb
  | .lui => .wb
  | .lw => .wb
  | .halt => .wb
  | .fill => .wb

/-- The order in which a tick processes the stages (44_pipeline.md R145). -/
def stageOrder : List Stage := [.wb, .me, .ex, .rr, .ifetch]

/-- The downstream stage, if there is one (44_pipeline.md R148). -/
def nextStage : Stage → Option Stage
  | .ifetch => some .rr
  | .rr => some .ex
  | .ex => some .me
  | .me => some .wb
  | .wb => none

/-- The flag set when a stage's effect has been applied (44_pipeline.md R147). -/
def State.markFired (s : State) (st : Stage) : State :=
  match s.slot st with
  | .occ r ce cn _ => s.setSlot st (.occ r ce cn true)
  | .empty => s

/-- A ready occupant's move (44_pipeline.md R148): out of WB, or into an empty downstream slot with `ce = 0`,
the table's `cn` and `fired = false`; otherwise it stays. -/
def State.advance (s : State) (st : Stage) (r : Record) : State :=
  match nextStage st with
  | none => s.setSlot st .empty
  | some down =>
    match s.slot down with
    | .empty => (s.setSlot down (s.entering r down)).setSlot st .empty
    | .occ _ _ _ _ => s

/-- The effect of a ready occupant, if it is bound to this stage and has not fired
(44_pipeline.md R147, R151). -/
def applyBound (st : Stage) (r : Record) (fired : Bool) (s : State) : Host.Outcome State Fault Refusal :=
  if fired = false ∧ effectStage r.opcode = st then exec r.instr s else .next s

/-- What follows an effect in the same stage: nothing if it ended the tick (44_pipeline.md R153, R154), else
the flag and the move. -/
def State.afterEffect (s : State) (st : Stage) (r : Record) (fired : Bool) : State :=
  if s.status = .running then
    (if fired = false ∧ effectStage r.opcode = st then s.markFired st else s).advance st r
  else s

/-- One stage's turn: an occupant with `ce >= cn` is ready (44_pipeline.md R146); any other slot does
nothing. -/
def processStage (st : Stage) (s : State) : Host.Outcome State Fault Refusal :=
  match s.slot st with
  | .empty => .next s
  | .occ r ce cn fired =>
    if cn ≤ ce then
      match applyBound st r fired s with
      | .next t => .next (t.afterEffect st r fired)
      | .fault e => .fault e
      | .refused e => .refused e
    else .next s

/-- The stages in turn, until one ends the tick (44_pipeline.md R144, R153, R154). -/
def walk : List Stage → State → Host.Outcome State Fault Refusal
  | [], s => .next s
  | st :: rest, s =>
    match processStage st s with
    | .next t => if t.status = .running then walk rest t else .next t
    | .fault e => .fault e
    | .refused e => .refused e

/-- IF refill (44_pipeline.md R157): an empty IF takes the record at the pc, if there is one, and the pc
goes up by one. -/
def State.refill (s : State) : State :=
  match s.slots.ifetch with
  | .occ _ _ _ _ => s
  | .empty =>
    match s.fetch s.pc with
    | none => s
    | some r => { s.setSlot .ifetch (s.entering r .ifetch) with pc := s.pc + 1 }

/-- One occupied slot's counter: `ce <- min(ce + 1, cn)` (44_pipeline.md R158). -/
def Slot.countUp : Slot → Slot
  | .empty => .empty
  | .occ r ce cn fired => .occ r (min (ce + 1) cn) cn fired

/-- The counters of all five slots. -/
def Slots.countUp (t : Slots) : Slots := ⟨t.ifetch.countUp, t.rr.countUp, t.ex.countUp, t.me.countUp, t.wb.countUp⟩

/-- The end of a tick that did not halt or fault: refill, counters, cycle, and Drained if every slot is
Empty (44_pipeline.md R157, R158, R160). -/
def State.endTick (s : State) : State :=
  let filled := s.refill
  let counted := { filled with slots := filled.slots.countUp, cycle := filled.cycle + 1 }
  if counted.slots = Slots.allEmpty then { counted with status := .drained } else counted

/-- What follows the walk: the end of the tick, unless the tick has ended already. -/
def finishTick : Host.Outcome State Fault Refusal → Host.Outcome State Fault Refusal
  | .next t => .next (if t.status = .running then t.endTick else t)
  | .fault e => .fault e
  | .refused e => .refused e

/-- The complete tick (44_pipeline.md R144); a terminal status is absorbing (R162). -/
def tick (s : State) : Host.Outcome State Fault Refusal :=
  if s.status = .running then finishTick (walk stageOrder s) else .next s

/-- The machine with one line loaded as its whole program and its record standing, ready and not fired, in
its effect stage, the pc past it: the next tick runs it (log entry 7). A line that does not decode loads
nothing. -/
def State.placeLine (s : State) (l : Line) : State :=
  match decodeRecord s.config.jalr00IsHalt l 0 with
  | .error _ => s
  | .ok r =>
    let st := effectStage r.opcode
    let n := s.latencyOf r.opcode st
    { s with
      source := [r]
      pc := 1
      slots := Slots.allEmpty.put st (.occ r n n false)
      status := .running }

end Sys2Proof.Machine
end

