-- ==== Sys2Proof/Machine/Step.lean ====
section
/-! DEFINITION. One step of the machine: one invocation of `step()`, one tick (44_pipeline.md R140, R144);
and the host's way of placing one instruction (log entry 7). -/

namespace Sys2Proof.Machine

/-- `step()`: one tick. The status it returns is the next state's `status` (44_pipeline.md R159). -/
def step (s : State) : Host.Outcome State Fault Refusal := tick s

/-- `s` with the line whose characters are the bits of `w` placed where the next step runs it (log
entries 1 and 7). -/
def State.withFetchWord (s : State) (nbits w : Nat) : State := s.placeLine (lineOfBits nbits w)

end Sys2Proof.Machine
end

