-- ==== Sys2Proof/Machine/HostApi.lean ====
section
/-! DEFINITION. The block's interface besides `step`: load, construction, snapshot, and the numeric codes.
Rules: 44_pipeline.md R141, R163; 60_exceptions.md R185, R192; 70_reset_and_hazards.md R210. -/

namespace Sys2Proof.Machine

/-- A loaded program: its image, its data region (all zero), and the configuration it was decoded under
(30_encoding.md R69). -/
structure Program where
  source       : List Record
  data         : Memory
  jalr00IsHalt : Bool
deriving DecidableEq, Repr

/-- `Program.load(lines)` (30_encoding.md R69, 44_pipeline.md R141). -/
def Program.load (haltPair : Bool) (lines : List Line) : Except LoadError Program :=
  match loadSource haltPair lines with
  | .error e => .error e
  | .ok source => .ok ⟨source, [], haltPair⟩

/-- `Pipeline.new(program, latency_table)`: the reset (70_reset_and_hazards.md R210); the data region is
zeroed again (R211). -/
def Pipeline.new (p : Program) (latency : LatencyTable) : State :=
  State.construct ⟨latency, p.jalr00IsHalt⟩ p.source

/-- What `snapshot()` shows of a slot: nothing, or the record, `ce` and `cn`; `fired` is internal
(44_pipeline.md R163). -/
structure StageView where
  record : Record
  ce     : Nat
  cn     : Nat
deriving DecidableEq, Repr

/-- The record `snapshot()` returns (44_pipeline.md R163): the stages are listed IF first. -/
structure Snapshot where
  cycle     : Nat
  stages    : List (Option StageView)
  registers : List Word
  pc        : Word
  status    : Status
  data      : List Word
deriving DecidableEq, Repr

/-- A slot as `snapshot()` shows it. -/
def Slot.view : Slot → Option StageView
  | .empty => none
  | .occ r ce cn _ => some ⟨r, ce, cn⟩

/-- The eight register indices. -/
def registerIndices : List RegIndex := [0, 1, 2, 3, 4, 5, 6, 7]

/-- `snapshot()`: a pure observation (44_pipeline.md R163). -/
def State.snapshot (s : State) : Snapshot where
  cycle := s.cycle
  stages := stages.map fun st => (s.slot st).view
  registers := registerIndices.map s.readReg
  pc := s.pc
  status := s.status
  data := (List.range dataSize).map (Memory.read s.data)

/-- The numeric code of a status (60_exceptions.md R185). -/
def Status.code : Status → Nat
  | .running => 0
  | .halted => 1
  | .drained => 2
  | .fault _ => 3

/-- The numeric code of a fault kind (60_exceptions.md R185). -/
def Fault.code : Fault → Nat
  | .addressOutOfRange => 0
  | .fatalMisexecution => 1

/-- The numeric code of a load error (60_exceptions.md R185). -/
def loadErrorCode : LoadError → Nat
  | .invalidSource _ => 0
  | .programTooLarge => 1

/-- The host's exit code is 0 for a terminal status, non-zero for a fault; Running has none
(60_exceptions.md R192). -/
def Status.exitsWithZero : Status → Option Bool
  | .running => none
  | .halted => some true
  | .drained => some true
  | .fault _ => some false

/-- The host's exit code is non-zero for every load error (60_exceptions.md R192). -/
def loadErrorExitsWithZero : LoadError → Bool
  | .invalidSource _ => false
  | .programTooLarge => false

end Sys2Proof.Machine
end

