-- ==== Sys2Proof/Safety.lean ====
section
/-! DEFINITION. The words claims use: the grammar of a line (30_encoding.md R70 to R75), what an instruction may leave changed, the invariant of a state
between ticks (44_pipeline.md R164, 10_state.md R28), and a state with its display texts forgotten
(10_state.md R38). -/

namespace Sys2Proof

/-! ### The grammar of a line, said without the decoder -/

/-- The whitespace of 30_encoding.md R70: space, tab, LF, VT, FF and CR. -/
def whitespace : List Char := [' ', '\t', '\n', '\x0b', '\x0c', '\r']

/-- The decimal digits. -/
def decimalDigits : List Char := ['0', '1', '2', '3', '4', '5', '6', '7', '8', '9']

/-- The number some decimal digits write. -/
def decimalValue (digits : Line) : Nat := digits.foldl (fun n c => 10 * n + (c.toNat - 48)) 0

/-- `l` is a literal `[+-]?[0-9]+` with the value `v` (30_encoding.md R72). -/
def LiteralOf (l : Line) (v : Int) : Prop :=
  ∃ sign digits : Line, l = sign ++ digits ∧ digits ≠ [] ∧ (∀ c ∈ digits, c ∈ decimalDigits) ∧
    (((sign = [] ∨ sign = ['+']) ∧ v = (decimalValue digits : Int)) ∨
     (sign = ['-'] ∧ v = -(decimalValue digits : Int)))

/-- The range of each operand position of a mnemonic, first position first; as many positions as the mnemonic
takes operands (30_encoding.md R72 to R74, R80 to R91). -/
def Mnemonic.ranges : Mnemonic → List (Int × Int)
  | .add => [(0, 7), (0, 7), (0, 7)]
  | .nand => [(0, 7), (0, 7), (0, 7)]
  | .addi => [(0, 7), (0, 7), (-64, 63)]
  | .lw => [(0, 7), (0, 7), (-64, 63)]
  | .sw => [(0, 7), (0, 7), (-64, 63)]
  | .beq => [(0, 7), (0, 7), (-64, 63)]
  | .jalr => [(0, 7), (0, 7)]
  | .lui => [(0, 7), (0, 1023)]
  | .nop => []
  | .halt => []
  | .lli => [(0, 7), (-64, 63)]
  | .fill => [(-32768, 32767)]

/-- The mnemonic an instruction is written with (30_encoding.md R80 to R91, R94). -/
def Instr.mnemonic : Instr → Mnemonic
  | .add _ _ _ => .add
  | .nand _ _ _ => .nand
  | .addi _ _ _ => .addi
  | .lw _ _ _ => .lw
  | .sw _ _ _ => .sw
  | .beq _ _ _ => .beq
  | .jalr _ _ => .jalr
  | .jalr00 => .jalr
  | .lui _ _ => .lui
  | .nop => .nop
  | .halt => .halt
  | .lli _ _ => .lli
  | .fill _ => .fill

/-- The values of an instruction's operands, in the order they are written (30_encoding.md R80 to R91, R94). -/
def Instr.operandValues : Instr → List Int
  | .add a b c => [a.val, b.val, c.val]
  | .nand a b c => [a.val, b.val, c.val]
  | .addi a b i => [a.val, b.val, i]
  | .lw a b i => [a.val, b.val, i]
  | .sw a b i => [a.val, b.val, i]
  | .beq a b i => [a.val, b.val, i]
  | .jalr a b => [a.val, b.val]
  | .jalr00 => [0, 0]
  | .lui a u => [a.val, u]
  | .nop => []
  | .halt => []
  | .lli a i => [a.val, i]
  | .fill v => [v]

/-- A mnemonic alone, or with one space and its operands between commas (30_encoding.md R71). -/
def writtenLine (m : Mnemonic) : List Line → Line
  | [] => m.spelling
  | x :: xs => m.spelling ++ ' ' :: joinCommas (x :: xs)

/-- `l` is, with whitespace around it, the mnemonic `m` and literals of the values `vals`
(30_encoding.md R70 to R72). -/
def Writes (l : Line) (m : Mnemonic) (vals : List Int) : Prop :=
  ∃ (front back : Line) (ops : List Line), (∀ c ∈ front, c ∈ whitespace) ∧ (∀ c ∈ back, c ∈ whitespace) ∧
    l = front ++ writtenLine m ops ++ back ∧ List.Forall₂ LiteralOf ops vals

/-- The decoder refuses `l`; the name of the reason is the model's (log entry 9). -/
def Refused (l : Line) : Prop := ∃ e, decodeLine l = .error e

end Sys2Proof

namespace Sys2Proof.Machine

/-- Nothing but the general registers differs, and of those only register `a` can read differently; with
`a = 0` nothing differs at all (10_state.md R21). -/
def OnlyRegister (a : RegIndex) (s t : State) : Prop :=
  t = { s with regs := t.regs } ∧ (∀ r : RegIndex, r ≠ a → t.readReg r = s.readReg r) ∧ (a = 0 → t = s)

/-- Nothing but the data region differs, and of that only the word at index `k`. -/
def OnlyDataWord (k : Nat) (s t : State) : Prop :=
  t = { s with data := t.data } ∧ ∀ j : Nat, j ≠ k → Memory.read t.data j = Memory.read s.data j

/-- The slot IF after a squash (44_pipeline.md R155). -/
def SquashedFetch (s t : State) : Prop :=
  (∀ r ce cn f, s.slots.ifetch = .occ r ce cn f → t.slots.ifetch = .occ bubble ce cn false) ∧
  (s.slots.ifetch = .empty → t.slots.ifetch = .occ bubble 0 (s.config.latency.entry .add .ifetch) false)

/-- A slot whose occupant is ready and has not fired (44_pipeline.md R146, R147). -/
def ReadyUnfired (x : Slot) (r : Record) : Prop := ∃ ce cn, x = .occ r ce cn false ∧ cn ≤ ce

/-- The opcodes that write `regA` at WB (10_state.md R22). -/
def writesAtWb (op : Opcode) : Bool :=
  match op with
  | .add => true
  | .addi => true
  | .nand => true
  | .lui => true
  | .lw => true
  | .sw => false
  | .beq => false
  | .jalr => false
  | .halt => false
  | .fill => false

/-- What holds of one stage's slot between ticks (10_state.md R28, 44_pipeline.md R148, R151, R155). -/
structure SlotInv (s : State) (st : Stage) (r : Record) (ce cn : Nat) (fired : Bool) : Prop where
  /-- `cn >= 1`. -/
  required_pos : 1 ≤ cn
  /-- `ce <= cn`. -/
  elapsed_le : ce ≤ cn
  /-- The occupant was fetched, or is the bubble. -/
  known : r = bubble ∨ r ∈ s.source
  /-- Only an effect bound to this stage fires, and only of a ready occupant. -/
  fired_bound : fired = true → effectStage r.opcode = st ∧ ce = cn
  /-- `cn` is the table's entry, but for a bubble that inherited a squashed occupant's counters. -/
  required_entry : cn = s.latencyOf r.opcode st ∨ (st = .ifetch ∧ r = bubble)

/-- The invariant of a state between ticks. -/
structure State.Inv (s : State) : Prop where
  /-- The register cell behind R0 holds 0 (44_pipeline.md R164 (d)). -/
  zero_register : s.regs[0] = 0
  /-- The data region is in its canonical form. -/
  data_wf : Memory.wf s.data = true
  /-- The program is one the loader admits (10_state.md R32). -/
  admitted : s.programSize ≤ maxProgram
  /-- Every record carries its own index (30_encoding.md R67). -/
  addresses : ∀ (k : Nat) (r : Record), s.source[k]? = some r → r.address = k
  /-- Unused record fields are zero (30_encoding.md R62). -/
  clean : ∀ r ∈ s.source, r.clean = true
  /-- The latency table is positive (10_state.md R31). -/
  table : s.config.latency.positive = true
  /-- The slot invariants. -/
  slots : ∀ st r ce cn fired, s.slot st = .occ r ce cn fired → SlotInv s st r ce cn fired
  /-- A drained machine has nothing left to fetch or to run (44_pipeline.md R160). -/
  drained : s.status = .drained → s.slots = Slots.allEmpty ∧ s.programSize ≤ s.pc.toNat
  /-- A halted machine's WB is empty (44_pipeline.md R153). -/
  halted : s.status = .halted → s.slots.wb = .empty

/-- A record without its display text. -/
def Record.forgetText (r : Record) : Record := { r with text := [] }

/-- A slot without display texts. -/
def Slot.forgetText : Slot → Slot
  | .empty => .empty
  | .occ r ce cn fired => .occ (Record.forgetText r) ce cn fired

/-- A state without display texts. -/
def State.forgetText (s : State) : State :=
  { s with
    source := s.source.map Record.forgetText
    slots := ⟨s.slots.ifetch.forgetText, s.slots.rr.forgetText, s.slots.ex.forgetText, s.slots.me.forgetText,
      s.slots.wb.forgetText⟩ }

end Sys2Proof.Machine
end

