-- ==== Sys2Proof/Certificates/Slice0/Obligations.lean ====
section
/-! DEFINITION. The statements for the provers, one `def Obligations.<Name> : Prop` each; OBLIGATIONS.json
lists them. Each docstring names the rule or the section of spec/ it formalises. -/

open Sys2Proof Sys2Proof.Machine

/-! ## Text, decoding, loading -/

/-- 30_encoding.md §2, §3, §5: every well-formed instruction's line decodes to it, with every operand at
every value its position admits. The line is the encoder's canonical spelling (log entry 10). -/
def Obligations.DecodeInvertsEncode : Prop :=
  ∀ i : Instr, i.wellFormed = true → decodeLine (encode i) = .ok i

/-- 30_encoding.md §2 (R72, R73): a line that is well formed but for a literal whose value lies outside its
position's range is an error, however the literals are spelled and whatever whitespace stands around the line: a
register outside 0..7, an immediate or a fill value outside its range. Of the encoder's lines, those of the
ill-formed instructions are errors, but for JALR with the pair 0,0, whose line is that of the row `jalr 0,0`. The
error's name is the model's (log entry 9). -/
def Obligations.IllFormedOperandsAreRefused : Prop :=
  (∀ (l : Line) (m : Mnemonic) (vals : List Int), Writes l m vals → vals.length = m.ranges.length →
    ∀ (k : Nat) (v lo hi : Int), vals[k]? = some v → m.ranges[k]? = some (lo, hi) → (v < lo ∨ hi < v) →
      decodeLine l = .error .outOfRange) ∧
  ∀ i : Instr, i.wellFormed = false →
    (i = .jalr 0 0 ∧ decodeLine (encode i) = .ok .jalr00) ∨
    (i ≠ .jalr 0 0 ∧ decodeLine (encode i) = .error .outOfRange)

/-- 30_encoding.md §2, §3: whatever a line spells, its operands are in range. -/
def Obligations.DecodedInstructionsAreWellFormed : Prop :=
  ∀ (l : Line) (i : Instr), decodeLine l = .ok i → i.wellFormed = true

/-- 30_encoding.md R70 to R75, R92: a line decodes to an instruction exactly when it is, with whitespace around
it, the instruction's mnemonic in its one spelling and, if it has operands, one space and between commas exactly
as many literals as it has operands, which have the operands' values, and those are in range. Every other line
is refused. The pair 0,0 of JALR is the row `jalr 0,0`. -/
def Obligations.DecodingAcceptsExactlyTheGrammar : Prop :=
  (∀ (l : Line) (i : Instr), decodeLine l = .ok i ↔ Writes l i.mnemonic i.operandValues ∧ i.wellFormed = true) ∧
  (∀ l : Line, Refused l ↔ ∀ i : Instr, ¬ (Writes l i.mnemonic i.operandValues ∧ i.wellFormed = true)) ∧
  ∀ t : Line, (∃ m : Mnemonic, m.spelling = t) ↔
    t ∈ [['a', 'd', 'd'], ['n', 'a', 'n', 'd'], ['a', 'd', 'd', 'i'], ['l', 'w'], ['s', 'w'], ['b', 'e', 'q'],
      ['j', 'a', 'l', 'r'], ['l', 'u', 'i'], ['n', 'o', 'p'], ['h', 'a', 'l', 't'], ['l', 'l', 'i'],
      ['.', 'f', 'i', 'l', 'l']]

/-- 30_encoding.md §2, §3 (R93): the decode errors one by one, of a line whose text after trimming is `t`: it is
blank; it has no space and is no mnemonic that takes no operands; whitespace stands in its operand list; its
mnemonic is unknown; its operand count is wrong; or the text at an operand position is no literal in range. -/
def Obligations.LinesOutsideTheGrammarAreRefused : Prop :=
  ∀ (front t back : Line), (∀ c ∈ front, c ∈ whitespace) → (∀ c ∈ back, c ∈ whitespace) →
    (∀ c, t.head? = some c → c ∉ whitespace) → (∀ c, t.getLast? = some c → c ∉ whitespace) →
    (t = [] → Refused (front ++ t ++ back)) ∧
    (' ' ∉ t → (∀ m : Mnemonic, m.ranges = [] → t ≠ m.spelling) → Refused (front ++ t ++ back)) ∧
    ∀ word rest : Line, t = word ++ ' ' :: rest → ' ' ∉ word →
      ((∃ c ∈ rest, c ∈ whitespace) → Refused (front ++ t ++ back)) ∧
      ((∀ m : Mnemonic, word ≠ m.spelling) → Refused (front ++ t ++ back)) ∧
      ∀ (m : Mnemonic) (ops : List Line), word = m.spelling → rest = joinCommas ops → ops ≠ [] →
        (∀ x ∈ ops, ',' ∉ x) →
        (ops.length ≠ m.ranges.length → Refused (front ++ t ++ back)) ∧
        ∀ (k : Nat) (x : Line) (lo hi : Int), ops[k]? = some x → m.ranges[k]? = some (lo, hi) →
          (∀ v, LiteralOf x v → v < lo ∨ hi < v) → Refused (front ++ t ++ back)

/-- 30_encoding.md §2 (trimming): whitespace around a line changes neither its instruction nor its text. -/
def Obligations.SurroundingWhitespaceIsIgnored : Prop :=
  ∀ (front l back : Line), (∀ c ∈ front, isSpace c = true) → (∀ c ∈ back, isSpace c = true) →
    decodeLine (front ++ l ++ back) = decodeLine l ∧ trim (front ++ l ++ back) = trim l

/-- 30_encoding.md R97: re-decoding a record's stored text, under the same configuration, gives the record
again, modulo its address. -/
def Obligations.RedecodingTheTextGivesTheRecord : Prop :=
  ∀ (haltPair : Bool) (l : Line) (addr addr' : Nat) (r : Record),
    decodeRecord haltPair l addr = .ok r → decodeRecord haltPair r.text addr' = .ok { r with address := addr' }

/-- 30_encoding.md R94: a `jalr` line whose two literals have the values x and y is HALT or JALR 0,0, as
`JALR00_IS_HALT` says, exactly when both values are 0, however they are spelled; otherwise it is JALR x,y. -/
def Obligations.JalrPairIsReadByValue : Prop :=
  ∀ (p q : Line) (x y : RegIndex) (haltPair : Bool) (addr : Nat),
    parseInt p = some (x.val : Int) → parseInt q = some (y.val : Int) →
    let l : Line := ['j', 'a', 'l', 'r', ' '] ++ p ++ ',' :: q
    decodeRecord haltPair l addr =
      .ok (if x = 0 ∧ y = 0 ∧ haltPair = true then ⟨.halt, .none, 0, 0, 0, 0, 0, 0, addr, l⟩
           else ⟨.jalr, .rri, x, y, 0, 0, 0, 0, addr, l⟩)

/-- 30_encoding.md R69: a source longer than 31768 lines is refused; otherwise the first failing line, counted
from 1, is named; and if no line fails the program holds each line's record at its index and zeroed data. -/
def Obligations.LoadBuildsTheProgramOrNamesTheFirstBadLine : Prop :=
  ∀ (haltPair : Bool) (lines : List Line),
    (31768 < lines.length → Program.load haltPair lines = .error .programTooLarge) ∧
    (lines.length ≤ 31768 →
      (∀ (good : List Line) (bad : Line) (rest : List Line), lines = good ++ bad :: rest →
        (∀ l ∈ good, ∃ i, decodeLine l = .ok i) → (∀ i, decodeLine bad ≠ .ok i) →
        Program.load haltPair lines = .error (.invalidSource (good.length + 1))) ∧
      ((∀ l ∈ lines, ∃ i, decodeLine l = .ok i) →
        ∃ p, Program.load haltPair lines = .ok p ∧ p.source.length = lines.length ∧
          (∀ k, Memory.read p.data k = 0) ∧
          ∀ (k : Nat) (l : Line), lines[k]? = some l →
            ∃ r, p.source[k]? = some r ∧ decodeRecord haltPair l k = .ok r))

/-- 30_encoding.md R67, R68: a loaded record carries its index in the source as its address and the trimmed
line, not an expansion, as its text; and (R62) its unused fields are zero. -/
def Obligations.LoadedRecordsAreStampedAndClean : Prop :=
  ∀ (haltPair : Bool) (lines : List Line) (p : Program), Program.load haltPair lines = .ok p →
    ∀ (k : Nat) (r : Record), p.source[k]? = some r →
      r.address = k ∧ r.clean = true ∧ ∃ l, lines[k]? = some l ∧ r.text = trim l

/-- 30_encoding.md §3: some of the lines the rules of that section give as examples, character by character,
decode to the instruction they stand for. A sanity statement. -/
def Obligations.ExampleLinesDecode : Prop :=
  decodeLine ['a', 'd', 'd', ' ', '3', ',', '1', ',', '2'] = .ok (.add 3 1 2) ∧
  decodeLine ['a', 'd', 'd', 'i', ' ', '1', ',', '0', ',', '-', '6', '4'] = .ok (.addi 1 0 (-64)) ∧
  decodeLine ['s', 'w', ' ', '1', ',', '2', ',', '0'] = .ok (.sw 1 2 0) ∧
  decodeLine ['b', 'e', 'q', ' ', '1', ',', '2', ',', '1'] = .ok (.beq 1 2 1) ∧
  decodeLine ['j', 'a', 'l', 'r', ' ', '0', ',', '0'] = .ok .jalr00 ∧
  decodeLine ['l', 'u', 'i', ' ', '2', ',', '1'] = .ok (.lui 2 1) ∧
  decodeLine ['.', 'f', 'i', 'l', 'l', ' ', '-', '1'] = .ok (.fill (-1))

/-! ## Arithmetic and logic -/

/-- 00_scope.md §4: `wrap16 n` is the one Word congruent to `n` modulo 2^16. -/
def Obligations.WrapIsTheCongruentWord : Prop :=
  ∀ n : Int, (∃ k : Int, (wrap16 n).toInt = n + 65536 * k) ∧
    ∀ w : Word, (∃ k : Int, w.toInt = n + 65536 * k) → w = wrap16 n

/-- 40_alu.md R101: ADD. Record, stage, default latencies, result, and nothing else changed. -/
def Obligations.AddWritesTheWrappedSum : Prop :=
  effectStage .add = .wb ∧ defaultLatency.row .add = ⟨1, 1, 2, 1, 1⟩ ∧
  ∀ (a b c : RegIndex) (s : State),
    (∀ h addr text, (Instr.add a b c).record h addr text = ⟨.add, .rrr, a, b, c, 0, 0, 0, addr, text⟩) ∧
    ∃ t, exec (.add a b c) s = .next t ∧ OnlyRegister a s t ∧
      (a ≠ 0 → t.readReg a = wrap16 ((s.readReg b).toInt + (s.readReg c).toInt))

/-- 40_alu.md R102: ADDI, with the signed immediate as an integer. -/
def Obligations.AddiWritesTheWrappedSum : Prop :=
  effectStage .addi = .wb ∧ defaultLatency.row .addi = ⟨1, 1, 2, 1, 1⟩ ∧
  ∀ (a b : RegIndex) (i : Int) (s : State),
    (∀ h addr text, (Instr.addi a b i).record h addr text = ⟨.addi, .rri, a, b, 0, i, 0, 0, addr, text⟩) ∧
    ∃ t, exec (.addi a b i) s = .next t ∧ OnlyRegister a s t ∧
      (a ≠ 0 → t.readReg a = wrap16 ((s.readReg b).toInt + i))

/-- 40_alu.md R103: NAND, bit by bit. -/
def Obligations.NandWritesTheNegatedConjunction : Prop :=
  effectStage .nand = .wb ∧ defaultLatency.row .nand = ⟨1, 1, 2, 1, 1⟩ ∧
  ∀ (a b c : RegIndex) (s : State),
    (∀ h addr text, (Instr.nand a b c).record h addr text = ⟨.nand, .rrr, a, b, c, 0, 0, 0, addr, text⟩) ∧
    ∃ t, exec (.nand a b c) s = .next t ∧ OnlyRegister a s t ∧
      (a ≠ 0 → ∀ k, k < 16 →
        (t.readReg a).getLsbD k = !((s.readReg b).getLsbD k && (s.readReg c).getLsbD k))

/-- 40_alu.md R104: LUI, the immediate shifted left by 6 and read as a signed Word; the low 6 bits are 0. -/
def Obligations.LuiWritesTheShiftedImmediate : Prop :=
  effectStage .lui = .wb ∧ defaultLatency.row .lui = ⟨1, 1, 2, 1, 1⟩ ∧
  ∀ (a : RegIndex) (u : Nat) (s : State),
    (∀ h addr text, (Instr.lui a u).record h addr text = ⟨.lui, .ri, a, 0, 0, 0, u, 0, addr, text⟩) ∧
    ∃ t, exec (.lui a u) s = .next t ∧ OnlyRegister a s t ∧
      (a ≠ 0 → t.readReg a = wrap16 ((u : Int) * 64) ∧ ∀ k, k < 6 → (t.readReg a).getLsbD k = false)

/-- 40_alu.md R105: `nop` is the record ADD 0,0,0, with ADD's latencies and stage, changes no state, and the
bubble is the same record at address 0 with its own text. -/
def Obligations.NopChangesNothing : Prop :=
  effectStage .add = .wb ∧ defaultLatency.row .add = ⟨1, 1, 2, 1, 1⟩ ∧
  (∀ h addr text, Instr.nop.record h addr text = (Instr.add 0 0 0).record h addr text ∧
    Instr.nop.record h addr text = ⟨.add, .rrr, 0, 0, 0, 0, 0, 0, addr, text⟩) ∧
  (∃ text, ∀ h, bubble = Instr.nop.record h 0 text) ∧
  ∀ s : State, exec .nop s = .next s ∧ exec bubble.instr s = .next s

/-- 40_alu.md R106: `lli a,i` is the record ADDI a,a,i and adds to the whole register; after `lui a,u` with a
small immediate it completes the constant. -/
def Obligations.LliAddsToTheWholeRegister : Prop :=
  ∀ (a : RegIndex) (i : Int) (s : State),
    (∀ h addr text, (Instr.lli a i).record h addr text = ⟨.addi, .rri, a, a, 0, i, 0, 0, addr, text⟩) ∧
    (∃ t, exec (.lli a i) s = .next t ∧ OnlyRegister a s t ∧
      (a ≠ 0 → t.readReg a = wrap16 ((s.readReg a).toInt + i))) ∧
    ∀ (u : Nat) (t : State), a ≠ 0 → exec (.lui a u) s = .next t →
      ∃ t', exec (.lli a i) t = .next t' ∧ t'.readReg a = wrap16 ((u : Int) * 64 + i)

/-! ## Memory, loads and stores -/

/-- 20_memory.md R40, R41, R42: the unified address space. -/
def Obligations.UnifiedAddressSpace : Prop :=
  ∀ (s : State) (a v : Word),
    (a.toInt < 0 ∨ (s.programSize : Int) + 1000 ≤ a.toInt → s.memRead a = none ∧ s.memWrite a v = none) ∧
    (0 ≤ a.toInt → a.toInt < (s.programSize : Int) →
      s.memWrite a v = some s ∧
      ∃ r, s.source[a.toInt.toNat]? = some r ∧
        s.memRead a = some (if r.opcode = .fill then wrap16 r.fillValue else 0)) ∧
    ((s.programSize : Int) ≤ a.toInt → a.toInt < (s.programSize : Int) + 1000 →
      s.memRead a = some (Memory.read s.data (a.toInt - (s.programSize : Int)).toNat) ∧
      s.memWrite a v =
        some { s with data := Memory.write s.data (a.toInt - (s.programSize : Int)).toNat v })

/-- 20_memory.md §1, §4: after a write, every address reads as before, but for the written one if it lies in
the data region, which reads the written word. -/
def Obligations.WriteThenReadEveryAddress : Prop :=
  ∀ (s t : State) (a v : Word), s.memWrite a v = some t →
    t.source = s.source ∧ (∀ b : Word, b ≠ a → t.memRead b = s.memRead b) ∧
    t.memRead a = if a.toInt < (s.programSize : Int) then s.memRead a else some v

/-- Log entry 3 (the model's own representation of the data region of 10_state.md §7): canonical data regions that read the same
at every index of the region are equal as data. -/
def Obligations.CanonicalRegionsAreDeterminedByTheirWords : Prop :=
  ∀ m m' : Memory, Memory.wf m = true → Memory.wf m' = true →
    (∀ k, k < 1000 → Memory.read m k = Memory.read m' k) → m = m'

/-- 41_loadstore.md R111: LW at WB, for the effective address of R110. A faulting LW changes nothing but the
status and the cycle count, whatever its destination, and ends its tick; an LW in range writes what `MemRead`
reads. -/
def Obligations.LoadWritesTheWordRead : Prop :=
  effectStage .lw = .wb ∧ defaultLatency.row .lw = ⟨1, 1, 2, 3, 1⟩ ∧
  ∀ (a b : RegIndex) (i : Int) (s : State),
    (∀ h addr text, (Instr.lw a b i).record h addr text = ⟨.lw, .rri, a, b, 0, i, 0, 0, addr, text⟩) ∧
    let ea := wrap16 ((s.readReg b).toInt + i)
    ((ea.toInt < 0 ∨ (s.programSize : Int) + 1000 ≤ ea.toInt) →
      exec (.lw a b i) s = .next { s with status := .fault .addressOutOfRange, cycle := s.cycle + 1 }) ∧
    (0 ≤ ea.toInt → ea.toInt < (s.programSize : Int) + 1000 →
      ∃ t v, exec (.lw a b i) s = .next t ∧ s.memRead ea = some v ∧ OnlyRegister a s t ∧
        (a ≠ 0 → t.readReg a = v)) ∧
    ∀ r : Record, s.status = .running → ReadyUnfired s.slots.wb r → r.instr = .lw a b i →
      (ea.toInt < 0 ∨ (s.programSize : Int) + 1000 ≤ ea.toInt) →
      step s = .next { s with status := .fault .addressOutOfRange, cycle := s.cycle + 1 }

/-- 41_loadstore.md R112: SW at ME, for the effective address of R110. A faulting SW changes nothing but the
status and the cycle count; an SW below N changes nothing; an SW in the data region changes that word only. -/
def Obligations.StoreWritesOneDataWord : Prop :=
  effectStage .sw = .me ∧ defaultLatency.row .sw = ⟨1, 1, 2, 3, 1⟩ ∧
  ∀ (a b : RegIndex) (i : Int) (s : State),
    (∀ h addr text, (Instr.sw a b i).record h addr text = ⟨.sw, .rri, a, b, 0, i, 0, 0, addr, text⟩) ∧
    let ea := wrap16 ((s.readReg b).toInt + i)
    ((ea.toInt < 0 ∨ (s.programSize : Int) + 1000 ≤ ea.toInt) →
      exec (.sw a b i) s = .next { s with status := .fault .addressOutOfRange, cycle := s.cycle + 1 }) ∧
    (0 ≤ ea.toInt → ea.toInt < (s.programSize : Int) + 1000 →
      ∃ t, exec (.sw a b i) s = .next t ∧
        (ea.toInt < (s.programSize : Int) → t = s) ∧
        ((s.programSize : Int) ≤ ea.toInt →
          OnlyDataWord (ea.toInt - (s.programSize : Int)).toNat s t ∧
          Memory.read t.data (ea.toInt - (s.programSize : Int)).toNat = s.readReg a))

/-! ## Control transfer -/

/-- 44_pipeline.md R155: the squash, which a taken BEQ and every JALR makes after its pc write. -/
def Obligations.SquashPutsTheBubbleIntoFetch : Prop :=
  bubble = ⟨.add, .rrr, 0, 0, 0, 0, 0, 0, 0, ['a', 'd', 'd', ' ', '0', ',', '0', ',', '0']⟩ ∧
  ∀ s : State, SquashedFetch s s.squash ∧
    s.squash = { s with slots := { s.slots with ifetch := s.squash.slots.ifetch } } ∧
    (∀ a b i, s.readReg a = s.readReg b →
      ∃ target, exec (.beq a b i) s = .next (State.squash { s with pc := target })) ∧
    ∀ a b, ∃ regs target, exec (.jalr a b) s = .next (State.squash { s with regs := regs, pc := target })

/-- 42_control.md R120: BEQ at RR, with the address of the record in RR. -/
def Obligations.BeqJumpsWhenRegistersAreEqual : Prop :=
  effectStage .beq = .rr ∧ defaultLatency.row .beq = ⟨1, 1, 1, 1, 1⟩ ∧
  ∀ (a b : RegIndex) (i : Int) (s : State) (r : Record) (ce cn : Nat) (f : Bool),
    (∀ h addr text, (Instr.beq a b i).record h addr text = ⟨.beq, .rri, a, b, 0, i, 0, 0, addr, text⟩) ∧
    (s.readReg a ≠ s.readReg b → exec (.beq a b i) s = .next s) ∧
    (s.slots.rr = .occ r ce cn f → s.readReg a = s.readReg b →
      ∃ t, exec (.beq a b i) s = .next t ∧ t.pc = wrap16 ((r.address : Int) + 1 + i) ∧ SquashedFetch s t ∧
        t = { s with pc := t.pc, slots := { s.slots with ifetch := t.slots.ifetch } })

/-- 42_control.md R121: JALR at RR, with the address of the record in RR: link first, then the jump to the
register as it then reads, then the squash. -/
def Obligations.JalrLinksThenJumps : Prop :=
  effectStage .jalr = .rr ∧ defaultLatency.row .jalr = ⟨1, 1, 1, 1, 1⟩ ∧
  ∀ (a b : RegIndex) (s : State) (r : Record) (ce cn : Nat) (f : Bool),
    (∀ h addr text, (Instr.jalr a b).record h addr text = ⟨.jalr, .rri, a, b, 0, 0, 0, 0, addr, text⟩) ∧
    (s.slots.rr = .occ r ce cn f →
      ∃ t, exec (.jalr a b) s = .next t ∧
        (a ≠ 0 → t.readReg a = wrap16 ((r.address : Int) + 1)) ∧
        (∀ q, q ≠ a → t.readReg q = s.readReg q) ∧ (a = 0 → t.regs = s.regs) ∧
        t.pc = (if a = b ∧ a ≠ 0 then wrap16 ((r.address : Int) + 1) else s.readReg b) ∧ SquashedFetch s t ∧
        t = { s with regs := t.regs, pc := t.pc, slots := { s.slots with ifetch := t.slots.ifetch } })

/-- 43_halt_fill.md R131: the row `jalr 0,0`. Under the alias its record and its effect are HALT's, with HALT's
row of the latency table; without it, it is a JALR with no link and target R0 = 0. -/
def Obligations.JalrZeroZeroHaltsOrJumpsToZero : Prop :=
  (∀ h addr, decodeRecord h ['j', 'a', 'l', 'r', ' ', '0', ',', '0'] addr =
    .ok (Instr.jalr00.record h addr ['j', 'a', 'l', 'r', ' ', '0', ',', '0'])) ∧
  (∀ addr text, Instr.jalr00.record true addr text = Instr.halt.record true addr text) ∧
  (∀ addr text, Instr.jalr00.record false addr text = (Instr.jalr 0 0).record false addr text) ∧
  ∀ s : State,
    (s.config.jalr00IsHalt = true → exec .jalr00 s = exec .halt s) ∧
    (s.config.jalr00IsHalt = false →
      ∃ t, exec .jalr00 s = .next t ∧ t.pc = 0 ∧ SquashedFetch s t ∧
        t = { s with pc := 0, slots := { s.slots with ifetch := t.slots.ifetch } })

/-! ## HALT, FILL and what ends a tick -/

/-- 43_halt_fill.md R130, 44_pipeline.md R153: HALT. Its effect, and the tick in which it is ready in WB: the
tick ends at once, whatever stands in the other slots. -/
def Obligations.HaltEndsTheTickHalted : Prop :=
  effectStage .halt = .wb ∧ defaultLatency.row .halt = ⟨1, 1, 1, 1, 1⟩ ∧
  (∀ h addr text, Instr.halt.record h addr text = ⟨.halt, .none, 0, 0, 0, 0, 0, 0, addr, text⟩) ∧
  (∀ s : State, exec .halt s =
    .next { s with slots := { s.slots with wb := .empty }, status := .halted, cycle := s.cycle + 1 }) ∧
  ∀ (s : State) (r : Record), s.status = .running → ReadyUnfired s.slots.wb r → r.opcode = .halt →
    step s = .next { s with slots := { s.slots with wb := .empty }, status := .halted, cycle := s.cycle + 1 }

/-- 43_halt_fill.md (R132): a FILL's effect is the fault, whatever its value, and the tick in which it is
ready in WB ends at once with the FILL still in WB. -/
def Obligations.FillEndsTheTickFaulted : Prop :=
  effectStage .fill = .wb ∧ defaultLatency.row .fill = ⟨1, 1, 2, 1, 1⟩ ∧
  (∀ v h addr text, (Instr.fill v).record h addr text = ⟨.fill, .none, 0, 0, 0, 0, 0, v, addr, text⟩) ∧
  (∀ (v : Int) (s : State), exec (.fill v) s =
    .next { s with status := .fault .fatalMisexecution, cycle := s.cycle + 1 }) ∧
  ∀ (s : State) (r : Record), s.status = .running → ReadyUnfired s.slots.wb r → r.opcode = .fill →
    step s = .next { s with status := .fault .fatalMisexecution, cycle := s.cycle + 1 }

/-- 44_pipeline.md R154, 60_exceptions.md R181: a fault. An LW or a FILL that faults in WB ends the tick before
ME is processed; an SW that faults in ME ends it there, with what WB did earlier in the tick kept, its address
computed after WB's effect. Nothing else changes: every slot, register, data word and the pc are as they were at
the moment of the fault. -/
def Obligations.FaultsEndTheTick : Prop :=
  (∀ (s : State) (r : Record), s.status = .running → ReadyUnfired s.slots.wb r →
    (r.opcode = .fill → step s = .next { s with status := .fault .fatalMisexecution, cycle := s.cycle + 1 }) ∧
    (r.opcode = .lw →
      (let ea := wrap16 ((s.readReg r.regB).toInt + r.sImmed)
       ea.toInt < 0 ∨ (s.programSize : Int) + 1000 ≤ ea.toInt) →
      step s = .next { s with status := .fault .addressOutOfRange, cycle := s.cycle + 1 })) ∧
  ∀ (s u : State) (r : Record), s.status = .running → processStage .wb s = .next u → u.status = .running →
    ReadyUnfired u.slots.me r → r.opcode = .sw →
    (let ea := wrap16 ((u.readReg r.regB).toInt + r.sImmed)
     ea.toInt < 0 ∨ (u.programSize : Int) + 1000 ≤ ea.toInt) →
    step s = .next { u with status := .fault .addressOutOfRange, cycle := u.cycle + 1 }

/-- 44_pipeline.md R162: a terminal status is absorbing. -/
def Obligations.TerminalStatusAbsorbs : Prop :=
  ∀ s : State, s.status ≠ .running → step s = .next s

/-! ## The tick -/

/-- 44_pipeline.md §1 (R143): a step always answers a next state. -/
def Obligations.StepAnswersANextState : Prop := ∀ s : State, ∃ t, step s = .next t

/-- 44_pipeline.md §2, §3 (how this machine runs a decoded instruction): if a line decodes to the instruction
`i` and its record stands ready, and not fired, in the stage its effect is bound to, when the walk comes to
that stage, the step is `exec i` at that state, then the fired flag and the move, the stages after it, and the
end of the tick. -/
def Obligations.StepRunsTheDecodedInstruction : Prop :=
  ∀ (l : Line) (i : Instr) (addr : Nat) (r : Record) (s u : State) (st : Stage) (before after : List Stage)
    (ce cn : Nat),
    decodeLine l = .ok i → decodeRecord s.config.jalr00IsHalt l addr = .ok r → s.status = .running →
    stageOrder = before ++ st :: after → walk before s = .next u → u.status = .running →
    u.slot st = .occ r ce cn false → cn ≤ ce → effectStage r.opcode = st →
    ∃ v, exec i u = .next v ∧
      step s = finishTick (if (v.afterEffect st r false).status = .running
        then walk after (v.afterEffect st r false) else .next (v.afterEffect st r false))

/-- 44_pipeline.md R157, 20_memory.md R43: fetch and the refill of IF; the refill follows the walk of the
stages and reads the pc the walk has left. -/
def Obligations.RefillFetchesAtThePc : Prop :=
  (∀ s u : State, s.status = .running → walk stageOrder s = .next u → u.status = .running →
    ∃ t, step s = .next t ∧ t.pc = u.refill.pc ∧ t.slots = u.refill.slots.countUp) ∧
  ∀ s : State,
    (∀ p : Word, s.fetch p = if p.toNat < s.programSize then s.source[p.toNat]? else none) ∧
    (∀ r ce cn f, s.slots.ifetch = .occ r ce cn f → s.refill = s) ∧
    (s.slots.ifetch = .empty → s.programSize ≤ s.pc.toNat → s.refill = s) ∧
    (s.slots.ifetch = .empty → s.pc.toNat < s.programSize →
      ∃ r, s.source[s.pc.toNat]? = some r ∧
        s.refill = { s with
          pc := wrap16 (s.pc.toInt + 1)
          slots := { s.slots with ifetch := .occ r 0 (s.config.latency.entry r.opcode .ifetch) false } })

/-- 44_pipeline.md R158: the counters at the end of a tick, those of the slots filled in it included; the cycle
counter counts every tick. -/
def Obligations.CountersSaturateAtTheEndOfTheTick : Prop :=
  (∀ s t : State, s.status = .running → step s = .next t → t.cycle = s.cycle + 1) ∧
  (∀ s u : State, s.status = .running → walk stageOrder s = .next u → u.status = .running →
    step s = .next u.endTick) ∧
  ∀ (s : State) (st : Stage),
    (∀ r ce cn f, s.refill.slot st = .occ r ce cn f → s.endTick.slot st = .occ r (min (ce + 1) cn) cn f) ∧
    (s.refill.slot st = .empty → s.endTick.slot st = .empty) ∧ s.endTick.cycle = s.cycle + 1 ∧
    ∀ k, (s.takeFault k).cycle = s.cycle + 1 ∧ s.halt.cycle = s.cycle + 1

/-- 44_pipeline.md R150: the binding table, and the effect's evaluation on the state its turn finds; and (R151) a
ready occupant of a stage its effect is not bound to does nothing but wait for its next slot, and between ticks
its flag is never set. -/
def Obligations.EffectsAreBoundToOneStage : Prop :=
  (effectStage .beq = .rr ∧ effectStage .jalr = .rr ∧ effectStage .sw = .me ∧ effectStage .add = .wb ∧
    effectStage .addi = .wb ∧ effectStage .nand = .wb ∧ effectStage .lui = .wb ∧ effectStage .lw = .wb ∧
    effectStage .halt = .wb ∧ effectStage .fill = .wb) ∧
  ∀ (s : State) (st : Stage) (r : Record) (ce cn : Nat) (f : Bool), s.status = .running →
    s.slot st = .occ r ce cn f →
    (cn ≤ ce → effectStage r.opcode = st → f = false →
      ∃ v, exec r.instr s = .next v ∧ processStage st s = .next (v.afterEffect st r false)) ∧
    (cn ≤ ce → effectStage r.opcode ≠ st → ∃ t, processStage st s = .next t ∧ t = { s with slots := t.slots }) ∧
    (s.Inv → effectStage r.opcode ≠ st → f = false)

/-- 44_pipeline.md R146: a slot that is not ready, or Empty, does nothing in its turn. -/
def Obligations.UnreadySlotsDoNothing : Prop :=
  ∀ (s : State) (st : Stage), (∀ r ce cn f, s.slot st = .occ r ce cn f → ce < cn) →
    processStage st s = .next s

/-- 44_pipeline.md §2 (R147): an effect fires once. The turn that applies it leaves the flag set if the
occupant cannot move on; a turn of an occupant whose flag is set changes nothing but slots. -/
def Obligations.EffectsFireOnce : Prop :=
  ∀ (s : State) (st down : Stage) (r : Record) (ce cn : Nat), s.status = .running → cn ≤ ce →
    nextStage st = some down →
    (∀ r' ce' cn' f' v, s.slot st = .occ r ce cn false → effectStage r.opcode = st →
      s.slot down = .occ r' ce' cn' f' → exec r.instr s = .next v → v.status = .running →
      ∃ t, processStage st s = .next t ∧ t = { v with slots := t.slots } ∧ t.slot st = .occ r ce cn true ∧
        ∀ su, su ≠ st → t.slot su = v.slot su) ∧
    (s.slot st = .occ r ce cn true →
      ∃ t, processStage st s = .next t ∧ t = { s with slots := t.slots } ∧
        ∀ su, su ≠ st → su ≠ down → t.slot su = s.slot su)

/-- 44_pipeline.md §2 (R148): where a ready occupant with no effect left goes. -/
def Obligations.ReadyOccupantsAdvanceOneStage : Prop :=
  ∀ (s : State) (st : Stage) (r : Record) (ce cn : Nat) (f : Bool), s.status = .running →
    s.slot st = .occ r ce cn f → cn ≤ ce → (f = true ∨ effectStage r.opcode ≠ st) →
    ∃ t, processStage st s = .next t ∧ t = { s with slots := t.slots } ∧
      (st = .wb → t.slot .wb = .empty ∧ ∀ su, su ≠ .wb → t.slot su = s.slot su) ∧
      ∀ down, nextStage st = some down →
        (s.slot down = .empty →
          t.slot st = .empty ∧ t.slot down = .occ r 0 (s.config.latency.entry r.opcode down) false ∧
          ∀ su, su ≠ st → su ≠ down → t.slot su = s.slot su) ∧
        (s.slot down ≠ .empty → t = s)

/-- 44_pipeline.md §7 (progress, R167): in a tick that does not halt or fault, the oldest occupant counts up if
it is not ready, and enters the next stage if it is. -/
def Obligations.OldestOccupantIsNeverBlocked : Prop :=
  ∀ (s t : State) (st down : Stage) (older : List Stage) (younger : List Stage) (r : Record) (ce cn : Nat)
    (f : Bool),
    s.Inv → s.status = .running → step s = .next t → t.status = .running → nextStage st = some down →
    stageOrder = older ++ st :: younger → (∀ su ∈ older, s.slot su = .empty) → s.slot st = .occ r ce cn f →
    (ce < cn → t.slot st = .occ r (ce + 1) cn f) ∧
    (cn ≤ ce → t.slot down = .occ r 1 (s.config.latency.entry r.opcode down) false)

/-- 44_pipeline.md R160: Drained is reached exactly by a tick that neither halts nor faults and leaves every
slot Empty, and then the pc lies outside the program. -/
def Obligations.DrainedExactlyWhenEmpty : Prop :=
  ∀ s t : State, s.status = .running → step s = .next t →
    (t.status = .drained ↔
      t.slots = Slots.allEmpty ∧ t.status ≠ .halted ∧ ∀ k, t.status ≠ .fault k) ∧
    (t.status = .drained → t.programSize ≤ t.pc.toNat)

/-- 10_state.md R29: the cycle counter is 0 at construction, counts every tick that is performed and no call in a
terminal status, is never read by the machine, and is reported by the snapshot. -/
def Obligations.CycleCountsTicksAndIsNeverRead : Prop :=
  (∀ config source, (State.construct config source).cycle = 0) ∧
  (∀ s : State, s.snapshot.cycle = s.cycle) ∧
  ∀ s t : State, step s = .next t →
    (s.status = .running → t.cycle = s.cycle + 1) ∧ (s.status ≠ .running → t.cycle = s.cycle) ∧
    ∀ c : Nat, step { s with cycle := c } = .next { t with cycle := c + (t.cycle - s.cycle) }

/-! ## Rules about the whole machine -/

/-- 10_state.md §7 (R33), 20_memory.md §1: a data word changes in a tick only at the address of a store that is ready
and not fired in ME, and only to the stored register's value after WB's effect. -/
def Obligations.OnlyAReadyStoreChangesData : Prop :=
  ∀ (s t : State) (k : Nat), step s = .next t → Memory.read t.data k ≠ Memory.read s.data k →
    ∃ r u, ReadyUnfired s.slots.me r ∧ r.opcode = .sw ∧ processStage .wb s = .next u ∧
      (wrap16 ((u.readReg r.regB).toInt + r.sImmed)).toInt = (s.programSize : Int) + k ∧
      Memory.read t.data k = u.readReg r.regA

/-- 10_state.md §2 (R22): a general register changes in a tick only if an ADD, ADDI, NAND, LUI or LW that is ready
and not fired in WB names it as `regA`, or a JALR that is ready and not fired in RR does. -/
def Obligations.OnlyWritersChangeRegisters : Prop :=
  ∀ (s t : State) (q : RegIndex), step s = .next t → t.readReg q ≠ s.readReg q →
    q ≠ 0 ∧
    ((∃ r, ReadyUnfired s.slots.wb r ∧ writesAtWb r.opcode = true ∧ r.regA = q) ∨
     (∃ r, ReadyUnfired s.slots.rr r ∧ r.opcode = .jalr ∧ r.regA = q))

/-- 10_state.md §3 (R23): without a BEQ or JALR that is ready and not fired in RR, the pc stays, or a refill has
fetched the record it pointed at and moved it on by one. -/
def Obligations.OnlyRefillAndControlMoveThePc : Prop :=
  ∀ s t : State, step s = .next t →
    (∀ r, ReadyUnfired s.slots.rr r → r.opcode ≠ .beq ∧ r.opcode ≠ .jalr) →
    t.pc = s.pc ∨
    (t.pc = wrap16 (s.pc.toInt + 1) ∧ s.pc.toNat < s.programSize ∧
      ∃ r cn, s.source[s.pc.toNat]? = some r ∧ t.slots.ifetch = .occ r (min 1 cn) cn false ∧
        cn = s.config.latency.entry r.opcode .ifetch)

/-- 10_state.md §7 (R32), 20_memory.md §4 (R53), 44_pipeline.md §1: no step changes the program or the
configuration. -/
def Obligations.ProgramAndConfigurationNeverChange : Prop :=
  ∀ s t : State, step s = .next t → t.source = s.source ∧ t.config = s.config

/-- 44_pipeline.md §7: the invariant between ticks, from every state that has it. -/
def Obligations.StepKeepsTheInvariant : Prop :=
  ∀ s t : State, s.Inv → step s = .next t → t.Inv

/-- 70_reset_and_hazards.md §1: a pipeline built from any loaded program and any positive latency table has the
invariant. -/
def Obligations.ConstructionHasTheInvariant : Prop :=
  ∀ (haltPair : Bool) (lines : List Line) (p : Program) (table : LatencyTable),
    Program.load haltPair lines = .ok p → table.positive = true → (Pipeline.new p table).Inv

/-- 70_reset_and_hazards.md §1: the state after reset has the invariant. Which program and configuration reset is
given is the model's choice (log entry 8). -/
def Obligations.ResetHasTheInvariant : Prop := State.reset.Inv

/-- 10_state.md R37: the state after `Pipeline.new`. -/
def Obligations.ConstructionState : Prop :=
  defaultConfig = ⟨defaultLatency, true⟩ ∧
  ∀ (p : Program) (table : LatencyTable),
    (∀ q : RegIndex, (Pipeline.new p table).readReg q = 0) ∧ (Pipeline.new p table).pc = 0 ∧
    (∀ k, Memory.read (Pipeline.new p table).data k = 0) ∧ (Pipeline.new p table).source = p.source ∧
    (∀ st, (Pipeline.new p table).slot st = .empty) ∧ (Pipeline.new p table).cycle = 0 ∧
    (Pipeline.new p table).status = .running ∧ (Pipeline.new p table).config = ⟨table, p.jalr00IsHalt⟩

/-- 10_state.md §9 (R38): the display texts influence nothing. States that differ only in texts step to states
that differ only in texts. -/
def Obligations.DisplayTextsInfluenceNothing : Prop :=
  ∀ s s' t t' : State, s.forgetText = s'.forgetText → step s = .next t → step s' = .next t' →
    t.forgetText = t'.forgetText

/-! ## Hazards and timing -/

/-- 44_pipeline.md §3 (R152), 70_reset_and_hazards.md §2 (R215, R217 (b)): what an instruction writes in WB, a BEQ
that becomes ready in RR in the same tick compares, whatever EX and ME hold (the contiguous chain WB, ME, EX, RR
of a writer at distance 3 among it), unless a store in ME ends the tick. -/
def Obligations.BranchSeesTheWriteBackOfItsTick : Prop :=
  ∀ (s v t : State) (w r : Record), s.status = .running → ReadyUnfired s.slots.wb w →
    exec w.instr s = .next v → v.status = .running → effectStage w.opcode = .wb →
    ReadyUnfired s.slots.rr r → r.opcode = .beq → step s = .next t → (∀ k, t.status ≠ .fault k) →
    (v.readReg r.regA = v.readReg r.regB →
      t.pc = wrap16 ((r.address : Int) + 1 + r.sImmed) ∨
      t.pc = wrap16 ((r.address : Int) + 1 + r.sImmed + 1)) ∧
    (v.readReg r.regA ≠ v.readReg r.regB → t.pc = s.pc ∨ t.pc = wrap16 (s.pc.toInt + 1))

/-- 44_pipeline.md §7 (R166), 70_reset_and_hazards.md §2: no forwarding and no stall. With nothing to apply in WB,
a BEQ that is ready in RR compares the registers as they stand, whatever EX and ME hold, unless a store in ME
ends the tick. -/
def Obligations.BranchReadsRegistersWithoutForwarding : Prop :=
  ∀ (s t : State) (r : Record), s.status = .running → (∀ w, ¬ ReadyUnfired s.slots.wb w) →
    ReadyUnfired s.slots.rr r → r.opcode = .beq → step s = .next t → (∀ k, t.status ≠ .fault k) →
    (s.readReg r.regA = s.readReg r.regB →
      t.pc = wrap16 ((r.address : Int) + 1 + r.sImmed) ∨
      t.pc = wrap16 ((r.address : Int) + 1 + r.sImmed + 1)) ∧
    (s.readReg r.regA ≠ s.readReg r.regB → t.pc = s.pc ∨ t.pc = wrap16 (s.pc.toInt + 1))

/-- 44_pipeline.md §4 (R156), 42_control.md (R123): a taken BEQ alone in front of one ready fetched
record. The branch moves to EX, the bubble takes the fetched record's place and moves to RR, and the target is
fetched in the same tick if it lies in the program. -/
def Obligations.TakenBranchLeavesOneBubble : Prop :=
  ∀ (s : State) (r j : Record) (ce cn : Nat) (f : Bool), s.status = .running → s.config.latency.positive = true →
    s.slots.wb = .empty → s.slots.me = .empty → s.slots.ex = .empty → ReadyUnfired s.slots.rr r →
    r.opcode = .beq → s.readReg r.regA = s.readReg r.regB → s.slots.ifetch = .occ j ce cn f → cn ≤ ce →
    let target := wrap16 ((r.address : Int) + 1 + r.sImmed)
    ∃ t, step s = .next t ∧ t.status = .running ∧ t.regs = s.regs ∧ t.data = s.data ∧
      t.slots.wb = .empty ∧ t.slots.me = .empty ∧
      t.slots.ex = .occ r 1 (s.config.latency.entry .beq .ex) false ∧
      t.slots.rr = .occ bubble 1 (s.config.latency.entry .add .rr) false ∧
      (s.programSize ≤ target.toNat → t.pc = target ∧ t.slots.ifetch = .empty) ∧
      (target.toNat < s.programSize → t.pc = wrap16 (target.toInt + 1) ∧
        ∃ g, s.source[target.toNat]? = some g ∧
          t.slots.ifetch = .occ g 1 (s.config.latency.entry g.opcode .ifetch) false)

/-- 44_pipeline.md §7 (R165): an instruction whose effect is bound to WB, just fetched into an otherwise empty
pipeline with nothing after it, under any latency table, leaves WB after the sum of its latencies, with its
effect applied once; a HALT halts then. -/
def Obligations.LoneInstructionRetiresOnTime : Prop :=
  ∀ (s v : State) (r : Record), s.status = .running → s.config.latency.positive = true →
    s.slots = { Slots.allEmpty with ifetch := .occ r 1 (s.config.latency.entry r.opcode .ifetch) false } →
    s.programSize ≤ s.pc.toNat → effectStage r.opcode = .wb → exec r.instr s = .next v →
    let row := s.config.latency.row r.opcode
    let total := row.ifetch + row.rr + row.ex + row.me + row.wb
    (v.status = .running →
      Sys2Proof.core.run total s =
        .next { v with slots := Slots.allEmpty, cycle := s.cycle + total, status := .drained }) ∧
    (r.opcode = .halt →
      Sys2Proof.core.run total s =
        .next { s with slots := Slots.allEmpty, cycle := s.cycle + total, status := .halted })

/-! ## Observation -/

/-- 44_pipeline.md R163: what `snapshot()` returns. -/
def Obligations.SnapshotReportsTheState : Prop :=
  ∀ s : State,
    s.snapshot.cycle = s.cycle ∧ s.snapshot.pc = s.pc ∧ s.snapshot.status = s.status ∧
    s.snapshot.stages = [s.slots.ifetch.view, s.slots.rr.view, s.slots.ex.view, s.slots.me.view, s.slots.wb.view] ∧
    (∀ x : Slot, (x = .empty → x.view = none) ∧
      ∀ r ce cn f, x = .occ r ce cn f → x.view = some ⟨r, ce, cn⟩) ∧
    (∀ q : RegIndex, s.snapshot.registers[q.val]? = some (s.readReg q)) ∧ s.snapshot.registers.length = 8 ∧
    (∀ k, k < 1000 → s.snapshot.data[k]? = some (Memory.read s.data k)) ∧ s.snapshot.data.length = 1000

/-- 60_exceptions.md R185 and §3 (R192): the numeric codes, and which outcomes map to exit code 0. -/
def Obligations.CodesOfOutcomes : Prop :=
  Status.code .running = 0 ∧ Status.code .halted = 1 ∧ Status.code .drained = 2 ∧
  (∀ k, Status.code (.fault k) = 3) ∧ Fault.code .addressOutOfRange = 0 ∧ Fault.code .fatalMisexecution = 1 ∧
  (∀ n, loadErrorCode (.invalidSource n) = 0) ∧ loadErrorCode .programTooLarge = 1 ∧
  Status.exitsWithZero .halted = some true ∧ Status.exitsWithZero .drained = some true ∧
  (∀ k, Status.exitsWithZero (.fault k) = some false) ∧ ∀ e, loadErrorExitsWithZero e = false
end

