-- ==== Sys2Proof/Laws/Decode.lean ====
section
/-! SUPPORT. The lemmas of the decoder and the encoder: digits, literals, commas, lines, trimming. -/

namespace Sys2Proof

/-! ### Digits and literals -/

/-- A digit's character has its value. -/
theorem digitValue_digitChar {d : Nat} (h : d < 10) : digitValue (digitChar d) = some d := by
  interval_cases d <;> rfl

/-- A digit's character lies among the digits. -/
theorem digitChar_range {d : Nat} (h : d < 10) : 48 ≤ (digitChar d).toNat ∧ (digitChar d).toNat ≤ 57 := by
  interval_cases d <;> decide

/-- Digits are read from the left. -/
theorem parseDigits_append (acc : Nat) (xs ys : Line) :
    parseDigits acc (xs ++ ys) = (parseDigits acc xs).bind fun n => parseDigits n ys := by
  induction xs generalizing acc with
  | nil => rfl
  | cons c xs ih =>
    simp only [List.cons_append, parseDigits]
    cases digitValue c with
    | none => rfl
    | some d => exact ih _

/-- Encoded digits are read back. -/
theorem parseDigits_encodeDigits {fuel n : Nat} (h : n < fuel) : parseDigits 0 (encodeDigits fuel n) = some n := by
  induction fuel generalizing n with
  | zero => omega
  | succ fuel ih =>
    unfold encodeDigits
    split
    · rename_i h10
      simp [parseDigits, digitValue_digitChar h10]
    · rw [parseDigits_append, ih (by omega)]
      simp only [Option.bind_some, parseDigits, digitValue_digitChar (Nat.mod_lt n (by omega))]
      congr 1
      omega

/-- Every encoded character is a digit. -/
theorem encodeDigits_digits (fuel n : Nat) : ∀ c ∈ encodeDigits fuel n, 48 ≤ c.toNat ∧ c.toNat ≤ 57 := by
  induction fuel generalizing n with
  | zero => simp [encodeDigits]
  | succ fuel ih =>
    unfold encodeDigits
    split
    · rename_i h10
      simpa using digitChar_range h10
    · intro c hc
      rcases List.mem_append.mp hc with hc | hc
      · exact ih _ c hc
      · rw [List.mem_singleton.mp hc]
        exact digitChar_range (Nat.mod_lt n (by omega))

/-- There is at least one encoded digit. -/
theorem encodeDigits_ne_nil (fuel n : Nat) : encodeDigits (fuel + 1) n ≠ [] := by
  unfold encodeDigits
  split <;> simp

/-- A natural number's text is not empty. -/
theorem encodeNat_ne_nil (n : Nat) : encodeNat n ≠ [] := encodeDigits_ne_nil n n

/-- A natural number's text is read back. -/
theorem parseNat_encodeNat (n : Nat) : parseNat (encodeNat n) = some n := by
  have h := parseDigits_encodeDigits (Nat.lt_succ_self n)
  unfold encodeNat
  cases he : encodeDigits (n + 1) n with
  | nil => exact absurd he (encodeDigits_ne_nil n n)
  | cons c cs => rw [← he]; unfold parseNat; rw [he] at h ⊢; exact h

/-- A literal without a sign is read as digits. -/
theorem parseInt_unsigned {l : Line} (h : ∀ c ∈ l, 48 ≤ c.toNat ∧ c.toNat ≤ 57) :
    parseInt l = withSign false (parseNat l) := by
  cases l with
  | nil => rfl
  | cons c cs =>
    have hc := h c (by simp)
    have h1 : c ≠ '+' := by rintro rfl; exact absurd hc.1 (by decide)
    have h2 : c ≠ '-' := by rintro rfl; exact absurd hc.1 (by decide)
    simp [parseInt, h1, h2]

/-- A natural number's text, read as an integer. -/
theorem parseInt_encodeNat (n : Nat) : parseInt (encodeNat n) = some (n : Int) := by
  rw [parseInt_unsigned (l := encodeNat n) (encodeDigits_digits _ _), parseNat_encodeNat]
  rfl

/-- An integer's text is read back. -/
theorem parseInt_encodeInt (v : Int) : parseInt (encodeInt v) = some v := by
  unfold encodeInt
  split
  · have hm : ¬ ('-' = '+') := by decide
    simp only [parseInt, hm, if_false, if_true, parseNat_encodeNat]
    simp only [withSign, if_true]
    exact congrArg some (by omega)
  · rw [parseInt_encodeNat]
    congr 1
    omega

/-! ### What a literal is -/

/-- The decimal digits are the characters with a digit value. -/
theorem mem_decimalDigits {c : Char} : c ∈ decimalDigits ↔ 48 ≤ c.toNat ∧ c.toNat ≤ 57 := by
  constructor
  · intro h
    simp only [decimalDigits, List.mem_cons, List.not_mem_nil, or_false] at h
    rcases h with rfl | rfl | rfl | rfl | rfl | rfl | rfl | rfl | rfl | rfl <;> decide
  · rintro ⟨h1, h2⟩
    have hc : c = Char.ofNat c.toNat := (Char.ofNat_toNat c).symm
    rw [hc]
    interval_cases c.toNat <;> decide

/-- The digits that are read, and their value. -/
theorem parseDigits_eq_some {acc n : Nat} {l : Line} :
    parseDigits acc l = some n ↔
      (∀ c ∈ l, c ∈ decimalDigits) ∧ n = l.foldl (fun n c => 10 * n + (c.toNat - 48)) acc := by
  induction l generalizing acc with
  | nil => simp [parseDigits, eq_comm]
  | cons c cs ih =>
    simp only [parseDigits, digitValue]
    by_cases h : 48 ≤ c.toNat ∧ c.toNat ≤ 57
    · simp [h, ih, mem_decimalDigits, Nat.mul_comm]
    · simp [h, mem_decimalDigits]

/-- One or more digits, and their value. -/
theorem parseNat_eq_some {n : Nat} {l : Line} :
    parseNat l = some n ↔ l ≠ [] ∧ (∀ c ∈ l, c ∈ decimalDigits) ∧ n = decimalValue l := by
  cases l with
  | nil => simp [parseNat]
  | cons c cs => simp only [parseNat, parseDigits_eq_some, decimalValue]; simp

/-- A sign on digits that were read. -/
theorem withSign_eq_some {b : Bool} {o : Option Nat} {v : Int} :
    withSign b o = some v ↔ ∃ n, o = some n ∧ v = if b then -(n : Int) else (n : Int) := by
  cases o with
  | none => simp [withSign]
  | some n => simp [withSign, eq_comm]

/-- The decoder reads exactly the literals of 30_encoding.md R72, with their values. -/
theorem parseInt_eq_some {l : Line} {v : Int} : parseInt l = some v ↔ LiteralOf l v := by
  constructor
  · intro h
    cases l with
    | nil => simp [parseInt] at h
    | cons c cs =>
      simp only [parseInt] at h
      split at h
      · rename_i hc
        obtain ⟨n, hn, hv⟩ := withSign_eq_some.mp h
        obtain ⟨h1, h2, rfl⟩ := parseNat_eq_some.mp hn
        exact ⟨['+'], cs, by simp [hc], h1, h2, .inl ⟨.inr rfl, by simpa using hv⟩⟩
      · split at h
        · rename_i hc
          obtain ⟨n, hn, hv⟩ := withSign_eq_some.mp h
          obtain ⟨h1, h2, rfl⟩ := parseNat_eq_some.mp hn
          exact ⟨['-'], cs, by simp [hc], h1, h2, .inr ⟨rfl, by simpa using hv⟩⟩
        · obtain ⟨n, hn, hv⟩ := withSign_eq_some.mp h
          obtain ⟨h1, h2, rfl⟩ := parseNat_eq_some.mp hn
          exact ⟨[], c :: cs, rfl, h1, h2, .inl ⟨.inl rfl, by simpa using hv⟩⟩
  · rintro ⟨sign, digits, rfl, h1, h2, ⟨rfl | rfl, rfl⟩ | ⟨rfl, rfl⟩⟩
    · rw [List.nil_append, parseInt_unsigned fun c hc => mem_decimalDigits.mp (h2 c hc)]
      exact withSign_eq_some.mpr ⟨_, parseNat_eq_some.mpr ⟨h1, h2, rfl⟩, rfl⟩
    · exact withSign_eq_some.mpr ⟨_, parseNat_eq_some.mpr ⟨h1, h2, rfl⟩, rfl⟩
    · exact withSign_eq_some.mpr ⟨_, parseNat_eq_some.mpr ⟨h1, h2, rfl⟩, rfl⟩

/-- The trim set, as the decoder tests it. -/
theorem isSpace_iff {c : Char} : isSpace c = true ↔ c ∈ whitespace := by
  constructor
  · intro h
    have hc : c = Char.ofNat c.toNat := (Char.ofNat_toNat c).symm
    simp only [isSpace, Bool.or_eq_true, beq_iff_eq] at h
    rcases h with ((((h | h) | h) | h) | h) | h <;> rw [hc, h] <;> decide
  · intro h
    simp only [whitespace, List.mem_cons, List.not_mem_nil, or_false] at h
    rcases h with rfl | rfl | rfl | rfl | rfl | rfl <;> decide

/-! ### Operand texts: no comma and no whitespace -/

/-- A text without commas and whitespace. -/
def operandText (l : Line) : Prop := ∀ c ∈ l, c ≠ ',' ∧ isSpace c = false

/-- Digits are no commas and no whitespace. -/
theorem operandText_of_digits {l : Line} (h : ∀ c ∈ l, 48 ≤ c.toNat ∧ c.toNat ≤ 57) : operandText l := by
  intro c hc
  have := h c hc
  refine ⟨?_, by simp [isSpace]; omega⟩
  rintro rfl
  exact absurd this.1 (by decide)

/-- A sign before an operand text. -/
theorem operandText_cons {c : Char} {l : Line} (hc : c ≠ ',' ∧ isSpace c = false) (h : operandText l) :
    operandText (c :: l) := List.forall_mem_cons.mpr ⟨hc, h⟩

/-- A literal is an operand text, and not empty. -/
theorem operandText_literal {l : Line} {v : Int} (h : LiteralOf l v) : operandText l ∧ l ≠ [] := by
  obtain ⟨sign, digits, rfl, h1, h2, h3⟩ := h
  have hd := operandText_of_digits fun c hc => mem_decimalDigits.mp (h2 c hc)
  refine ⟨?_, by simp [h1]⟩
  rcases h3 with ⟨rfl | rfl, -⟩ | ⟨rfl, -⟩
  · exact hd
  · exact operandText_cons (by decide) hd
  · exact operandText_cons (by decide) hd

/-- A natural number's text is an operand text. -/
theorem operandText_encodeNat (n : Nat) : operandText (encodeNat n) :=
  operandText_of_digits (encodeDigits_digits _ _)

/-- A register's text is an operand text. -/
theorem operandText_encodeRegister (r : RegIndex) : operandText (encodeRegister r) := operandText_encodeNat _

/-- An integer's text is an operand text. -/
theorem operandText_encodeInt (v : Int) : operandText (encodeInt v) :=
  (operandText_literal (parseInt_eq_some.mp (parseInt_encodeInt v))).1

/-- An integer's text is not empty. -/
theorem encodeInt_ne_nil (v : Int) : encodeInt v ≠ [] := by
  unfold encodeInt
  split
  · simp
  · exact encodeNat_ne_nil _

/-- An operand character is no comma. -/
theorem operandText_no_comma {l : Line} (h : operandText l) : ',' ∉ l := fun hc => (h _ hc).1 rfl

/-- An operand character is no whitespace. -/
theorem operandText_no_space {l : Line} (h : operandText l) : ∀ c ∈ l, isSpace c = false := fun c hc => (h c hc).2

/-! ### Commas -/

/-- A piece without commas is one piece. -/
theorem splitCommas_piece {x : Line} (h : ',' ∉ x) : splitCommas x = [x] := by
  induction x with
  | nil => rfl
  | cons c cs ih =>
    have hc : c ≠ ',' := fun e => h (by simp [e])
    have hcs : ',' ∉ cs := fun e => h (by simp [e])
    simp [splitCommas, hc, ih hcs]

/-- The first piece ends at the first comma. -/
theorem splitCommas_append {x l : Line} (h : ',' ∉ x) : splitCommas (x ++ ',' :: l) = x :: splitCommas l := by
  induction x with
  | nil => simp [splitCommas]
  | cons c cs ih =>
    have hc : c ≠ ',' := fun e => h (by simp [e])
    have hcs : ',' ∉ cs := fun e => h (by simp [e])
    simp [splitCommas, hc, ih hcs]

/-- Joined pieces split into themselves. -/
theorem splitCommas_joinCommas {ops : List Line} (hne : ops ≠ []) (h : ∀ x ∈ ops, ',' ∉ x) :
    splitCommas (joinCommas ops) = ops := by
  induction ops with
  | nil => exact absurd rfl hne
  | cons x xs ih =>
    cases xs with
    | nil => exact splitCommas_piece (h x (by simp))
    | cons y ys =>
      simp only [joinCommas]
      rw [splitCommas_append (h x (by simp)), ih (by simp) fun z hz => h z (by simp [hz])]

/-- The characters of joined pieces. -/
theorem joinCommas_mem {ops : List Line} {c : Char} (h : c ∈ joinCommas ops) : c = ',' ∨ ∃ x ∈ ops, c ∈ x := by
  induction ops with
  | nil => simp [joinCommas] at h
  | cons x xs ih =>
    cases xs with
    | nil => exact .inr ⟨x, by simp, by simpa [joinCommas] using h⟩
    | cons y ys =>
      simp only [joinCommas, List.mem_append, List.mem_cons] at h
      rcases h with h | rfl | h
      · exact .inr ⟨x, by simp, h⟩
      · exact .inl rfl
      · rcases ih h with h | ⟨z, hz, hc⟩
        · exact .inl h
        · exact .inr ⟨z, by simp [hz], hc⟩

/-- Joined operand texts hold no whitespace. -/
theorem joinCommas_no_space {ops : List Line} (h : ∀ x ∈ ops, operandText x) :
    ∀ c ∈ joinCommas ops, isSpace c = false := by
  intro c hc
  rcases joinCommas_mem hc with rfl | ⟨x, hx, hc⟩
  · rfl
  · exact operandText_no_space (h x hx) c hc

/-- Joined pieces, one of which is not empty, are not empty. -/
theorem joinCommas_ne_nil {x : Line} {xs : List Line} (h : x ≠ []) : joinCommas (x :: xs) ≠ [] := by
  cases xs with
  | nil => exact h
  | cons y ys => simp [joinCommas]

/-! ### Mnemonics -/

/-- A spelling holds no whitespace and is not empty. -/
theorem spelling_no_space (m : Mnemonic) : ∀ c ∈ m.spelling, isSpace c = false := by
  cases m <;> simp [Mnemonic.spelling, isSpace]

/-- A spelling is not empty. -/
theorem spelling_ne_nil (m : Mnemonic) : m.spelling ≠ [] := by cases m <;> decide

/-- A spelling names its mnemonic. -/
theorem readMnemonic_spelling (m : Mnemonic) : readMnemonic m.spelling = some m := by cases m <;> rfl

/-! ### Trimming -/

/-- A line that starts and ends with something else than whitespace is trimmed. -/
theorem trim_eq_self {l : Line} (hf : ∀ c, l.head? = some c → isSpace c = false)
    (hl : ∀ c, l.getLast? = some c → isSpace c = false) : trim l = l := by
  have h1 : l.dropWhile isSpace = l := by
    cases l with
    | nil => rfl
    | cons c cs => simp [List.dropWhile, hf c rfl]
  have h2 : l.reverse.dropWhile isSpace = l.reverse := by
    cases hr : l.reverse with
    | nil => rfl
    | cons c cs =>
      have : l.getLast? = some c := by rw [← List.head?_reverse, hr]; rfl
      simp [List.dropWhile, hl c this]
  unfold trim trimEnd
  rw [h1, h2, List.reverse_reverse]

/-- A line without whitespace is trimmed. -/
theorem trim_no_space {l : Line} (h : ∀ c ∈ l, isSpace c = false) : trim l = l :=
  trim_eq_self (fun c hc => h c (List.mem_of_mem_head? hc)) (fun c hc => h c (List.mem_of_getLast? hc))

/-- An encoded line with operands is trimmed. -/
theorem trim_encodeWith (m : Mnemonic) {x : Line} {xs : List Line} (hx : x ≠ [])
    (h : ∀ y ∈ x :: xs, operandText y) : trim (encodeWith m (x :: xs)) = encodeWith m (x :: xs) := by
  have hj := joinCommas_ne_nil (xs := xs) hx
  refine trim_eq_self (fun c hc => ?_) (fun c hc => ?_)
  · unfold encodeWith at hc
    rw [List.head?_append_of_ne_nil _ (spelling_ne_nil m)] at hc
    exact spelling_no_space m c (List.mem_of_mem_head? hc)
  · unfold encodeWith at hc
    have hlast : (m.spelling ++ ' ' :: joinCommas (x :: xs)).getLast? = (joinCommas (x :: xs)).getLast? := by
      cases hjj : joinCommas (x :: xs) with
      | nil => exact absurd hjj hj
      | cons d ds =>
        have : (d :: ds).getLast? ≠ none := by simp
        rw [List.getLast?_append, List.getLast?_cons_cons]
        cases hd : (d :: ds).getLast? with
        | none => exact absurd hd this
        | some e => rfl
    rw [hlast] at hc
    exact joinCommas_no_space h c (List.mem_of_getLast? hc)

/-! ### Lines -/

/-- Up to the first space, and from it on. -/
theorem takeWhile_dropWhile_space {p : Line} (h : ∀ c ∈ p, isSpace c = false) (l : Line) :
    (p ++ ' ' :: l).takeWhile (· != ' ') = p ∧ (p ++ ' ' :: l).dropWhile (· != ' ') = ' ' :: l := by
  induction p with
  | nil => simp
  | cons c cs ih =>
    have hc : c ≠ ' ' := by
      rintro rfl
      exact absurd (h ' ' (by simp)) (by decide)
    have := ih fun d hd => h d (by simp [hd])
    simp [hc, this.1, this.2]

/-- An encoded line splits into its mnemonic and its operands. -/
theorem splitLine_encodeWith (m : Mnemonic) {x : Line} {xs : List Line} (hx : x ≠ [])
    (h : ∀ y ∈ x :: xs, operandText y) : splitLine (encodeWith m (x :: xs)) = .ok (m.spelling, x :: xs) := by
  have hs := takeWhile_dropWhile_space (spelling_no_space m) (joinCommas (x :: xs))
  have hne := joinCommas_ne_nil (xs := xs) hx
  have hany : (joinCommas (x :: xs)).any isSpace = false := by
    rw [List.any_eq_false]
    intro c hc
    simp [joinCommas_no_space h c hc]
  have hsplit := splitCommas_joinCommas (ops := x :: xs) (by simp) fun y hy => operandText_no_comma (h y hy)
  unfold splitLine encodeWith
  rw [if_pos (by simp)]
  simp [hs.1, hs.2, hne, hany, hsplit]

/-- An encoded line is read by its mnemonic and its operands. -/
theorem decodeLine_encodeWith (m : Mnemonic) {x : Line} {xs : List Line} (hx : x ≠ [])
    (h : ∀ y ∈ x :: xs, operandText y) : decodeLine (encodeWith m (x :: xs)) = readOperands m (x :: xs) := by
  unfold decodeLine
  rw [trim_encodeWith m hx h]
  unfold decodeTrimmed
  rw [splitLine_encodeWith m hx h]
  simp [encodeWith, readMnemonic_spelling]

/-! ### Operands -/

/-- A register's text is read back. -/
theorem registerOperand_encode (r : RegIndex) : registerOperand (encodeRegister r) = .ok r := by
  unfold registerOperand literalIn encodeRegister
  rw [parseInt_encodeNat]
  have : (0 : Int) ≤ (r.val : Int) ∧ (r.val : Int) ≤ 7 := by omega
  simp [this]

/-- An integer literal against its range. -/
theorem literalIn_encodeInt (lo hi v : Int) :
    literalIn lo hi (encodeInt v) = if lo ≤ v ∧ v ≤ hi then .ok v else .error .outOfRange := by
  unfold literalIn
  rw [parseInt_encodeInt]

/-- A natural literal against the unsigned range. -/
theorem unsignedOperand_encodeNat (u : Nat) :
    unsignedOperand (encodeNat u) = if u ≤ 1023 then .ok u else .error .outOfRange := by
  unfold unsignedOperand literalIn
  rw [parseInt_encodeNat]
  by_cases h : u ≤ 1023 <;> simp [h]

end Sys2Proof
end

