-- ==== Sys2Proof/Laws/State.lean ====
section
/-! SUPPORT. One lemma per field per update of the state, and what the register and slot operations do to
each other, so that no later proof unfolds a record update. -/

namespace Sys2Proof.Machine

/-! ### writeReg -/

@[simp] theorem writeReg_pc (s : State) (a : RegIndex) (v : Word) : (s.writeReg a v).pc = s.pc := by
  unfold State.writeReg; split <;> rfl
@[simp] theorem writeReg_source (s : State) (a : RegIndex) (v : Word) : (s.writeReg a v).source = s.source := by
  unfold State.writeReg; split <;> rfl
@[simp] theorem writeReg_data (s : State) (a : RegIndex) (v : Word) : (s.writeReg a v).data = s.data := by
  unfold State.writeReg; split <;> rfl
@[simp] theorem writeReg_slots (s : State) (a : RegIndex) (v : Word) : (s.writeReg a v).slots = s.slots := by
  unfold State.writeReg; split <;> rfl
@[simp] theorem writeReg_cycle (s : State) (a : RegIndex) (v : Word) : (s.writeReg a v).cycle = s.cycle := by
  unfold State.writeReg; split <;> rfl
@[simp] theorem writeReg_status (s : State) (a : RegIndex) (v : Word) : (s.writeReg a v).status = s.status := by
  unfold State.writeReg; split <;> rfl
@[simp] theorem writeReg_config (s : State) (a : RegIndex) (v : Word) : (s.writeReg a v).config = s.config := by
  unfold State.writeReg; split <;> rfl

/-- A write to register 0 is discarded. -/
@[simp] theorem writeReg_zero (s : State) (v : Word) : s.writeReg 0 v = s := by simp [State.writeReg]

/-- Register 0 reads as 0. -/
@[simp] theorem readReg_zero (s : State) : s.readReg 0 = 0 := by simp [State.readReg]

/-- A register other than 0 reads back what was written. -/
theorem readReg_writeReg_same (s : State) {a : RegIndex} (v : Word) (h : a ≠ 0) :
    (s.writeReg a v).readReg a = v := by
  simp [State.readReg, State.writeReg, h]

/-- A write leaves every other register as it read. -/
theorem readReg_writeReg_ne (s : State) {a r : RegIndex} (v : Word) (h : r ≠ a) :
    (s.writeReg a v).readReg r = s.readReg r := by
  unfold State.readReg State.writeReg
  by_cases ha : a = 0
  · simp [ha]
  · have : a.val ≠ r.val := fun e => h (Fin.ext e.symm)
    simp [ha, this]

/-- What a register write does, once: only that register can change. -/
theorem writeReg_onlyRegister (s : State) (a : RegIndex) (v : Word) : OnlyRegister a s (s.writeReg a v) := by
  refine ⟨?_, fun r h => readReg_writeReg_ne s v h, fun h => by simp [h]⟩
  unfold State.writeReg; split <;> rfl

/-- Registers are read from the register vector alone. -/
theorem readReg_congr {s t : State} (h : t.regs = s.regs) (r : RegIndex) : t.readReg r = s.readReg r := by
  simp [State.readReg, h]

/-- A register write keeps the cell behind R0. -/
theorem writeReg_cell_zero (s : State) (a : RegIndex) (v : Word) : (s.writeReg a v).regs[0] = s.regs[0] := by
  unfold State.writeReg
  split
  · rfl
  · rename_i h
    have : a.val ≠ 0 := fun e => h (Fin.ext e)
    simp [this]

/-! ### setSlot and the slots -/

@[simp] theorem setSlot_regs (s : State) (st : Stage) (x : Slot) : (s.setSlot st x).regs = s.regs := rfl
@[simp] theorem setSlot_pc (s : State) (st : Stage) (x : Slot) : (s.setSlot st x).pc = s.pc := rfl
@[simp] theorem setSlot_source (s : State) (st : Stage) (x : Slot) : (s.setSlot st x).source = s.source := rfl
@[simp] theorem setSlot_data (s : State) (st : Stage) (x : Slot) : (s.setSlot st x).data = s.data := rfl
@[simp] theorem setSlot_slots (s : State) (st : Stage) (x : Slot) : (s.setSlot st x).slots = s.slots.put st x := rfl
@[simp] theorem setSlot_cycle (s : State) (st : Stage) (x : Slot) : (s.setSlot st x).cycle = s.cycle := rfl
@[simp] theorem setSlot_status (s : State) (st : Stage) (x : Slot) : (s.setSlot st x).status = s.status := rfl
@[simp] theorem setSlot_config (s : State) (st : Stage) (x : Slot) : (s.setSlot st x).config = s.config := rfl

/-- A slot that was put is there. -/
@[simp] theorem Slots.get_put_same (t : Slots) (st : Stage) (x : Slot) : (t.put st x).get st = x := by
  cases st <;> rfl

/-- A put leaves every other slot. -/
theorem Slots.get_put_ne (t : Slots) {st su : Stage} (x : Slot) (h : su ≠ st) : (t.put st x).get su = t.get su := by
  cases st <;> cases su <;> first | rfl | exact absurd rfl h

/-- The same, by cases on the stage read. -/
theorem Slots.get_put (t : Slots) (st su : Stage) (x : Slot) :
    (t.put st x).get su = if su = st then x else t.get su := by
  split
  · rename_i h; subst h; simp
  · rename_i h; exact Slots.get_put_ne t x h

/-- Slots are equal when every stage's slot is. -/
theorem Slots.ext_get {t u : Slots} (h : ∀ st, t.get st = u.get st) : t = u := by
  have h0 := h .ifetch
  have h1 := h .rr
  have h2 := h .ex
  have h3 := h .me
  have h4 := h .wb
  cases t; cases u
  simp only [Slots.get] at h0 h1 h2 h3 h4
  simp [h0, h1, h2, h3, h4]

/-- Every slot of the empty pipeline is Empty. -/
@[simp] theorem Slots.get_allEmpty (st : Stage) : Slots.allEmpty.get st = .empty := by cases st <;> rfl

/-- A counted slot is the counter update of the slot. -/
@[simp] theorem Slots.get_countUp (t : Slots) (st : Stage) : t.countUp.get st = (t.get st).countUp := by
  cases st <;> rfl

/-! ### Ending a tick early -/

@[simp] theorem takeFault_regs (s : State) (k : Fault) : (s.takeFault k).regs = s.regs := rfl
@[simp] theorem takeFault_pc (s : State) (k : Fault) : (s.takeFault k).pc = s.pc := rfl
@[simp] theorem takeFault_source (s : State) (k : Fault) : (s.takeFault k).source = s.source := rfl
@[simp] theorem takeFault_data (s : State) (k : Fault) : (s.takeFault k).data = s.data := rfl
@[simp] theorem takeFault_slots (s : State) (k : Fault) : (s.takeFault k).slots = s.slots := rfl
@[simp] theorem takeFault_cycle (s : State) (k : Fault) : (s.takeFault k).cycle = s.cycle + 1 := rfl
@[simp] theorem takeFault_status (s : State) (k : Fault) : (s.takeFault k).status = .fault k := rfl
@[simp] theorem takeFault_config (s : State) (k : Fault) : (s.takeFault k).config = s.config := rfl

@[simp] theorem halt_regs (s : State) : s.halt.regs = s.regs := rfl
@[simp] theorem halt_pc (s : State) : s.halt.pc = s.pc := rfl
@[simp] theorem halt_source (s : State) : s.halt.source = s.source := rfl
@[simp] theorem halt_data (s : State) : s.halt.data = s.data := rfl
@[simp] theorem halt_slots (s : State) : s.halt.slots = s.slots.put .wb .empty := rfl
@[simp] theorem halt_cycle (s : State) : s.halt.cycle = s.cycle + 1 := rfl
@[simp] theorem halt_status (s : State) : s.halt.status = .halted := rfl
@[simp] theorem halt_config (s : State) : s.halt.config = s.config := rfl

/-! ### squash and jumpTo -/

/-- The slot IF after a squash: the bubble, with the old counters or with fresh ones. -/
def Slot.squashed (x : Slot) (required : Nat) : Slot :=
  match x with
  | .occ _ ce cn _ => .occ bubble ce cn false
  | .empty => .occ bubble 0 required false

/-- A squash replaces the slot IF and nothing else. -/
theorem squash_eq (s : State) :
    s.squash = s.setSlot .ifetch (s.slots.ifetch.squashed (s.latencyOf .add .ifetch)) := by
  unfold State.squash
  cases s.slots.ifetch <;> rfl

@[simp] theorem squash_regs (s : State) : s.squash.regs = s.regs := by simp [squash_eq]
@[simp] theorem squash_pc (s : State) : s.squash.pc = s.pc := by simp [squash_eq]
@[simp] theorem squash_source (s : State) : s.squash.source = s.source := by simp [squash_eq]
@[simp] theorem squash_data (s : State) : s.squash.data = s.data := by simp [squash_eq]
@[simp] theorem squash_cycle (s : State) : s.squash.cycle = s.cycle := by simp [squash_eq]
@[simp] theorem squash_status (s : State) : s.squash.status = s.status := by simp [squash_eq]
@[simp] theorem squash_config (s : State) : s.squash.config = s.config := by simp [squash_eq]

/-- The slots after a squash. -/
theorem squash_slots (s : State) :
    s.squash.slots = s.slots.put .ifetch (s.slots.ifetch.squashed (s.latencyOf .add .ifetch)) := by
  simp [squash_eq]

/-- The slot IF after a squash, as claims say it. -/
theorem squash_squashedFetch (s : State) : SquashedFetch s s.squash := by
  refine ⟨fun r ce cn f h => ?_, fun h => ?_⟩
  · simp [squash_slots, h, Slots.put, Slot.squashed]
  · simp [squash_slots, h, Slots.put, Slot.squashed, State.latencyOf]

@[simp] theorem jumpTo_regs (s : State) (w : Word) : (s.jumpTo w).regs = s.regs := by simp [State.jumpTo]
@[simp] theorem jumpTo_pc (s : State) (w : Word) : (s.jumpTo w).pc = w := by simp [State.jumpTo]
@[simp] theorem jumpTo_source (s : State) (w : Word) : (s.jumpTo w).source = s.source := by simp [State.jumpTo]
@[simp] theorem jumpTo_data (s : State) (w : Word) : (s.jumpTo w).data = s.data := by simp [State.jumpTo]
@[simp] theorem jumpTo_cycle (s : State) (w : Word) : (s.jumpTo w).cycle = s.cycle := by simp [State.jumpTo]
@[simp] theorem jumpTo_status (s : State) (w : Word) : (s.jumpTo w).status = s.status := by simp [State.jumpTo]
@[simp] theorem jumpTo_config (s : State) (w : Word) : (s.jumpTo w).config = s.config := by simp [State.jumpTo]

/-- The slots after a committed transfer: only IF differs. -/
theorem jumpTo_slots (s : State) (w : Word) :
    (s.jumpTo w).slots = s.slots.put .ifetch (s.slots.ifetch.squashed (s.latencyOf .add .ifetch)) := by
  simp [State.jumpTo, squash_slots, State.latencyOf]

/-! ### markFired and advance -/

/-- Setting the flag touches the slots alone. -/
theorem markFired_eq (s : State) (st : Stage) : s.markFired st = { s with slots := (s.markFired st).slots } := by
  unfold State.markFired; split <;> rfl

@[simp] theorem markFired_regs (s : State) (st : Stage) : (s.markFired st).regs = s.regs := by rw [markFired_eq]
@[simp] theorem markFired_pc (s : State) (st : Stage) : (s.markFired st).pc = s.pc := by rw [markFired_eq]
@[simp] theorem markFired_source (s : State) (st : Stage) : (s.markFired st).source = s.source := by rw [markFired_eq]
@[simp] theorem markFired_data (s : State) (st : Stage) : (s.markFired st).data = s.data := by rw [markFired_eq]
@[simp] theorem markFired_cycle (s : State) (st : Stage) : (s.markFired st).cycle = s.cycle := by rw [markFired_eq]
@[simp] theorem markFired_status (s : State) (st : Stage) : (s.markFired st).status = s.status := by rw [markFired_eq]
@[simp] theorem markFired_config (s : State) (st : Stage) : (s.markFired st).config = s.config := by rw [markFired_eq]

/-- A move touches the slots alone. -/
theorem advance_eq (s : State) (st : Stage) (r : Record) :
    s.advance st r = { s with slots := (s.advance st r).slots } := by
  unfold State.advance
  split
  · rfl
  · split <;> rfl

@[simp] theorem advance_regs (s : State) (st : Stage) (r : Record) : (s.advance st r).regs = s.regs := by
  rw [advance_eq]
@[simp] theorem advance_pc (s : State) (st : Stage) (r : Record) : (s.advance st r).pc = s.pc := by
  rw [advance_eq]
@[simp] theorem advance_source (s : State) (st : Stage) (r : Record) : (s.advance st r).source = s.source := by
  rw [advance_eq]
@[simp] theorem advance_data (s : State) (st : Stage) (r : Record) : (s.advance st r).data = s.data := by
  rw [advance_eq]
@[simp] theorem advance_cycle (s : State) (st : Stage) (r : Record) : (s.advance st r).cycle = s.cycle := by
  rw [advance_eq]
@[simp] theorem advance_status (s : State) (st : Stage) (r : Record) : (s.advance st r).status = s.status := by
  rw [advance_eq]
@[simp] theorem advance_config (s : State) (st : Stage) (r : Record) : (s.advance st r).config = s.config := by
  rw [advance_eq]

/-! ### refill and endTick -/

@[simp] theorem refill_regs (s : State) : s.refill.regs = s.regs := by
  unfold State.refill; split
  · rfl
  · split <;> rfl
@[simp] theorem refill_source (s : State) : s.refill.source = s.source := by
  unfold State.refill; split
  · rfl
  · split <;> rfl
@[simp] theorem refill_data (s : State) : s.refill.data = s.data := by
  unfold State.refill; split
  · rfl
  · split <;> rfl
@[simp] theorem refill_cycle (s : State) : s.refill.cycle = s.cycle := by
  unfold State.refill; split
  · rfl
  · split <;> rfl
@[simp] theorem refill_status (s : State) : s.refill.status = s.status := by
  unfold State.refill; split
  · rfl
  · split <;> rfl
@[simp] theorem refill_config (s : State) : s.refill.config = s.config := by
  unfold State.refill; split
  · rfl
  · split <;> rfl

@[simp] theorem endTick_regs (s : State) : s.endTick.regs = s.regs := by
  unfold State.endTick; dsimp only; split <;> simp
@[simp] theorem endTick_pc (s : State) : s.endTick.pc = s.refill.pc := by
  unfold State.endTick; dsimp only; split <;> simp
@[simp] theorem endTick_source (s : State) : s.endTick.source = s.source := by
  unfold State.endTick; dsimp only; split <;> simp
@[simp] theorem endTick_data (s : State) : s.endTick.data = s.data := by
  unfold State.endTick; dsimp only; split <;> simp
@[simp] theorem endTick_slots (s : State) : s.endTick.slots = s.refill.slots.countUp := by
  unfold State.endTick; dsimp only; split <;> simp
@[simp] theorem endTick_cycle (s : State) : s.endTick.cycle = s.cycle + 1 := by
  unfold State.endTick; dsimp only; split <;> simp
@[simp] theorem endTick_config (s : State) : s.endTick.config = s.config := by
  unfold State.endTick; dsimp only; split <;> simp

/-- The status after the end of a tick: Drained exactly when every slot is Empty. -/
theorem endTick_status (s : State) :
    s.endTick.status = if s.refill.slots.countUp = Slots.allEmpty then .drained else s.status := by
  unfold State.endTick
  simp only [refill_status]
  split <;> rfl

end Sys2Proof.Machine
end

