-- ==== Sys2Proof/Laws/Memory.lean ====
section
/-! SUPPORT. The data region: a write is read back and leaves every other word, and every operation keeps
the canonical form. -/

namespace Sys2Proof.Machine

@[simp] theorem memory_read_nil (k : Nat) : Memory.read [] k = 0 := rfl

/-- Reading past the first cell. -/
theorem memory_read_cons (j k : Nat) (w : Word) (m : Memory) :
    Memory.read ((j, w) :: m) k = if j = k then w else Memory.read m k := rfl

/-- An erased index reads as 0. -/
theorem memory_read_erase_same (m : Memory) (k : Nat) : Memory.read (Memory.erase m k) k = 0 := by
  induction m with
  | nil => rfl
  | cons c m ih =>
    obtain ⟨j, w⟩ := c
    unfold Memory.erase at ih ⊢
    by_cases h : j = k
    · simpa [List.filter, h] using ih
    · simpa [List.filter, h, memory_read_cons] using ih

/-- Erasing leaves every other index. -/
theorem memory_read_erase_ne (m : Memory) {j k : Nat} (h : j ≠ k) :
    Memory.read (Memory.erase m k) j = Memory.read m j := by
  induction m with
  | nil => rfl
  | cons c m ih =>
    obtain ⟨i, w⟩ := c
    unfold Memory.erase at ih ⊢
    by_cases hi : i = k
    · simpa [List.filter, hi, memory_read_cons, h.symm] using ih
    · simp only [List.filter, ne_eq, hi, not_false_eq_true, decide_true, memory_read_cons]
      split
      · rfl
      · exact ih

/-- An inserted word is read, if the index was not listed. -/
theorem memory_read_insert_same (m : Memory) (k : Nat) (v : Word) (h : ∀ c ∈ m, c.1 ≠ k) :
    Memory.read (Memory.insert k v m) k = v := by
  induction m with
  | nil => simp [Memory.insert, memory_read_cons]
  | cons c m ih =>
    obtain ⟨j, w⟩ := c
    unfold Memory.insert
    have hj : j ≠ k := h (j, w) (by simp)
    split
    · simp [memory_read_cons]
    · simp [memory_read_cons, hj, ih fun c hc => h c (by simp [hc])]

/-- Inserting leaves every other index. -/
theorem memory_read_insert_ne (m : Memory) {j k : Nat} (v : Word) (h : j ≠ k) :
    Memory.read (Memory.insert k v m) j = Memory.read m j := by
  induction m with
  | nil => simp [Memory.insert, memory_read_cons, h.symm]
  | cons c m ih =>
    obtain ⟨i, w⟩ := c
    unfold Memory.insert
    split
    · simp [memory_read_cons, h.symm]
    · simp [memory_read_cons, ih]

/-- No cell of an erased list has the erased index. -/
theorem memory_erase_not_listed (m : Memory) (k : Nat) : ∀ c ∈ Memory.erase m k, c.1 ≠ k := by
  intro c hc
  simpa using (List.mem_filter.mp hc).2

/-- A word that was written is read. -/
theorem memory_read_write_same (m : Memory) (k : Nat) (v : Word) : Memory.read (Memory.write m k v) k = v := by
  unfold Memory.write
  split
  · rename_i h; rw [h]; exact memory_read_erase_same m k
  · exact memory_read_insert_same _ k v (memory_erase_not_listed m k)

/-- A write leaves every other word. -/
theorem memory_read_write_ne (m : Memory) {j k : Nat} (v : Word) (h : j ≠ k) :
    Memory.read (Memory.write m k v) j = Memory.read m j := by
  unfold Memory.write
  split
  · exact memory_read_erase_ne m h
  · rw [memory_read_insert_ne _ v h, memory_read_erase_ne m h]

/-! ### The canonical form -/

/-- The canonical form, as two facts. -/
theorem memory_wf_iff (m : Memory) :
    Memory.wf m = true ↔ m.Pairwise (fun c d => c.1 < d.1) ∧ ∀ c ∈ m, c.1 < dataSize ∧ c.2 ≠ 0 := by
  simp [Memory.wf]

/-- Erasing keeps the canonical form. -/
theorem memory_erase_wf {m : Memory} (k : Nat) (h : Memory.wf m = true) : Memory.wf (Memory.erase m k) = true := by
  rw [memory_wf_iff] at h ⊢
  exact ⟨h.1.filter _, fun c hc => h.2 c (List.mem_filter.mp hc).1⟩

/-- The cells of a list with one inserted. -/
theorem memory_mem_insert {m : Memory} {k : Nat} {v : Word} {c : DataCell} (h : c ∈ Memory.insert k v m) :
    c = (k, v) ∨ c ∈ m := by
  induction m with
  | nil => simpa [Memory.insert] using h
  | cons d m ih =>
    unfold Memory.insert at h
    split at h
    · simpa using h
    · rcases List.mem_cons.mp h with h | h
      · exact .inr (by simp [h])
      · rcases ih h with h | h
        · exact .inl h
        · exact .inr (by simp [h])

/-- Inserting at an index that is not listed keeps the indices rising. -/
theorem memory_insert_rising {m : Memory} {k : Nat} {v : Word} (hm : m.Pairwise fun c d => c.1 < d.1)
    (hk : ∀ c ∈ m, c.1 ≠ k) : (Memory.insert k v m).Pairwise fun c d => c.1 < d.1 := by
  induction m with
  | nil => simp [Memory.insert]
  | cons c m ih =>
    obtain ⟨hc, hm⟩ := List.pairwise_cons.mp hm
    have hck : c.1 ≠ k := hk c (by simp)
    unfold Memory.insert
    split
    · rename_i hlt
      refine List.pairwise_cons.mpr ⟨fun d hd => ?_, List.pairwise_cons.mpr ⟨hc, hm⟩⟩
      rcases List.mem_cons.mp hd with rfl | hd
      · exact hlt
      · exact hlt.trans (hc d hd)
    · rename_i hge
      refine List.pairwise_cons.mpr ⟨fun d hd => ?_, ih hm fun d hd => hk d (by simp [hd])⟩
      rcases memory_mem_insert hd with rfl | hd
      · simp only; omega
      · exact hc d hd

/-- Writing inside the data region keeps the canonical form. -/
theorem memory_write_wf {m : Memory} {k : Nat} (v : Word) (h : Memory.wf m = true) (hk : k < dataSize) :
    Memory.wf (Memory.write m k v) = true := by
  have he := memory_erase_wf k h
  unfold Memory.write
  split
  · exact he
  · rename_i hv
    rw [memory_wf_iff] at he ⊢
    refine ⟨memory_insert_rising he.1 (memory_erase_not_listed m k), fun c hc => ?_⟩
    rcases memory_mem_insert hc with rfl | hc
    · exact ⟨hk, hv⟩
    · exact he.2 c hc

/-- An empty region is canonical: reset's memory. -/
theorem reset_data_wf : Memory.wf State.reset.data = true := rfl

end Sys2Proof.Machine
end

