-- ==== Sys2Proof/Laws/Ops.lean ====
section
/-! SUPPORT. What each shared operation can do, said once: the memory primitives, loads, stores, jumps, and
`exec` as one next state per instruction. -/

namespace Sys2Proof.Machine

/-- An address that is in range is not negative and lies below N + M. -/
theorem inRange_bounds {s : State} {a : Word} (h : s.outOfRange a = false) :
    0 ≤ a.toInt ∧ a.toNat < s.programSize + dataSize ∧ (a.toNat : Int) = a.toInt := by
  unfold State.outOfRange at h
  have h' : ¬ (a.toInt < 0 ∨ (s.programSize : Int) + (dataSize : Int) ≤ a.toInt) := by simpa using h
  have h0 : 0 ≤ a.toInt := by omega
  have : (a.toNat : Int) = a.toInt := by
    rw [BitVec.toInt_eq_toNat_cond] at h0 ⊢
    have := a.isLt
    split at h0 <;> split <;> omega
  omega

/-- What a write does: it is out of range, or it is ignored below N, or it changes one data word. -/
theorem memWrite_cases (s : State) (a v : Word) :
    (s.outOfRange a = true ∧ s.memWrite a v = none) ∨
    (s.outOfRange a = false ∧ a.toNat < s.programSize ∧ s.memWrite a v = some s) ∨
    (s.outOfRange a = false ∧ s.programSize ≤ a.toNat ∧
      s.memWrite a v = some { s with data := Memory.write s.data (a.toNat - s.programSize) v }) := by
  unfold State.memWrite
  cases h : s.outOfRange a
  · by_cases hn : a.toNat < s.programSize
    · simp [hn]
    · simp [hn]; omega
  · simp

/-- What a store does. -/
theorem store_cases (s : State) (a v : Word) :
    (s.outOfRange a = true ∧ s.store a v = s.takeFault .addressOutOfRange) ∨
    (s.outOfRange a = false ∧ a.toNat < s.programSize ∧ s.store a v = s) ∨
    (s.outOfRange a = false ∧ s.programSize ≤ a.toNat ∧
      s.store a v = { s with data := Memory.write s.data (a.toNat - s.programSize) v }) := by
  unfold State.store
  rcases memWrite_cases s a v with ⟨h, e⟩ | ⟨h, h', e⟩ | ⟨h, h', e⟩
  · exact .inl ⟨h, by simp [e]⟩
  · exact .inr (.inl ⟨h, h', by simp [e]⟩)
  · exact .inr (.inr ⟨h, h', by simp [e]⟩)

/-- What a load does. -/
theorem load_cases (s : State) (a : RegIndex) (addr : Word) :
    (s.outOfRange addr = true ∧ s.load a addr = s.takeFault .addressOutOfRange) ∨
    (s.outOfRange addr = false ∧ s.load a addr = s.writeReg a (s.wordAt addr.toNat)) := by
  unfold State.load State.memRead
  cases h : s.outOfRange addr <;> simp

/-- What a jump-and-link leaves: registers, pc and slot IF as said, all else the same. -/
theorem jumpAndLink_eq (s : State) (a b : RegIndex) :
    s.jumpAndLink a b =
      (s.writeReg a (linkValue s.controlAddress)).jumpTo ((s.writeReg a (linkValue s.controlAddress)).readReg b) := rfl

/-! ### exec answers one next state -/

/-- The effect of an instruction: the state `exec` answers. -/
def effect (i : Instr) (s : State) : State :=
  match i with
  | .add a b c => s.addRegisters a b c
  | .nand a b c => s.writeReg a (~~~(s.readReg b &&& s.readReg c))
  | .addi a b n => s.addImmediate a b n
  | .lw a b n => s.load a (s.effectiveAddress b n)
  | .sw a b n => s.store (s.effectiveAddress b n) (s.readReg a)
  | .beq a b n => if s.registersEqual a b then s.jumpTo (branchTarget s.controlAddress n) else s
  | .jalr a b => s.jumpAndLink a b
  | .jalr00 => if s.config.jalr00IsHalt then s.halt else s.jumpAndLink 0 0
  | .lui a u => s.writeReg a (upperImmediate u)
  | .nop => s.addRegisters 0 0 0
  | .halt => s.halt
  | .lli a n => s.addImmediate a a n
  | .fill _ => s.takeFault .fatalMisexecution

/-- `exec` neither faults nor refuses: it answers the effect. -/
theorem exec_eq_effect (i : Instr) (s : State) : exec i s = .next (effect i s) := by
  cases i <;> rfl

end Sys2Proof.Machine
end

