-- ==== Sys2Proof/Laws/PerInstr.lean ====
section
/-! SUPPORT. The family RecordFields: for each instruction, what 30_encoding.md R62 says of the record the
decoder builds for it. One lemma per constructor of Instr. -/

namespace Sys2Proof.Laws.RecordFields

/-- A well-formed instruction's record is clean and carries the address and the text it was given. -/
def Statement (i : Instr) : Prop :=
  i.wellFormed = true → ∀ (haltPair : Bool) (addr : Nat) (text : Line),
    (i.record haltPair addr text).clean = true ∧ (i.record haltPair addr text).address = addr ∧
      (i.record haltPair addr text).text = text

theorem add (a b c : RegIndex) : Statement (.add a b c) :=
  fun _ _ _ _ => ⟨by simp [Instr.record, recordRRR, Record.clean], rfl, rfl⟩

theorem nand (a b c : RegIndex) : Statement (.nand a b c) :=
  fun _ _ _ _ => ⟨by simp [Instr.record, recordRRR, Record.clean], rfl, rfl⟩

theorem addi (a b : RegIndex) (i : Int) : Statement (.addi a b i) :=
  fun h _ _ _ => ⟨by simpa [Instr.record, recordRRI, Record.clean, Instr.wellFormed] using h, rfl, rfl⟩

theorem lw (a b : RegIndex) (i : Int) : Statement (.lw a b i) :=
  fun h _ _ _ => ⟨by simpa [Instr.record, recordRRI, Record.clean, Instr.wellFormed] using h, rfl, rfl⟩

theorem sw (a b : RegIndex) (i : Int) : Statement (.sw a b i) :=
  fun h _ _ _ => ⟨by simpa [Instr.record, recordRRI, Record.clean, Instr.wellFormed] using h, rfl, rfl⟩

theorem beq (a b : RegIndex) (i : Int) : Statement (.beq a b i) :=
  fun h _ _ _ => ⟨by simpa [Instr.record, recordRRI, Record.clean, Instr.wellFormed] using h, rfl, rfl⟩

theorem jalr (a b : RegIndex) : Statement (.jalr a b) :=
  fun _ _ _ _ => ⟨by simp [Instr.record, recordRRI, Record.clean], rfl, rfl⟩

theorem jalr00 : Statement .jalr00 := by
  intro _ haltPair addr text
  cases haltPair <;> simp [Instr.record, recordRRI, recordHalt, Record.clean]

theorem lui (a : RegIndex) (u : Nat) : Statement (.lui a u) :=
  fun h _ _ _ => ⟨by simpa [Instr.record, Record.clean, Instr.wellFormed] using h, rfl, rfl⟩

theorem nop : Statement .nop :=
  fun _ _ _ _ => ⟨by simp [Instr.record, recordRRR, Record.clean], rfl, rfl⟩

theorem halt : Statement .halt :=
  fun _ _ _ _ => ⟨by simp [Instr.record, recordHalt, Record.clean], rfl, rfl⟩

theorem lli (a : RegIndex) (i : Int) : Statement (.lli a i) :=
  fun h _ _ _ => ⟨by simpa [Instr.record, recordRRI, Record.clean, Instr.wellFormed] using h, rfl, rfl⟩

theorem fill (v : Int) : Statement (.fill v) :=
  fun h _ _ _ => ⟨by simpa [Instr.record, Record.clean, Instr.wellFormed] using h, rfl, rfl⟩

end Sys2Proof.Laws.RecordFields
end

