-- ==== Sys2Proof/Laws/Pipeline.lean ====
section
/-! SUPPORT. What one stage's turn, the walk and the tick can do, said once. -/

namespace Sys2Proof.Machine

/-- What a ready occupant's turn leaves: its effect, if bound and not fired, then the flag and the move. -/
def readyTurn (st : Stage) (r : Record) (fired : Bool) (s : State) : State :=
  if fired = false ∧ effectStage r.opcode = st then (effect r.instr s).afterEffect st r fired
  else s.afterEffect st r fired

/-- What one stage's turn leaves. -/
def turn (st : Stage) (s : State) : State :=
  match s.slot st with
  | .empty => s
  | .occ r ce cn fired => if cn ≤ ce then readyTurn st r fired s else s

/-- The bound effect answers a next state. -/
theorem applyBound_eq (st : Stage) (r : Record) (fired : Bool) (s : State) :
    applyBound st r fired s =
      .next (if fired = false ∧ effectStage r.opcode = st then effect r.instr s else s) := by
  unfold applyBound
  rw [exec_eq_effect]
  split <;> rfl

/-- One stage's turn answers a next state. -/
theorem processStage_eq (st : Stage) (s : State) : processStage st s = .next (turn st s) := by
  unfold processStage turn readyTurn
  cases s.slot st with
  | empty => rfl
  | occ r ce cn fired =>
    simp only [applyBound_eq]
    split
    · split <;> rfl
    · rfl

/-- What the walk leaves. -/
def walked : List Stage → State → State
  | [], s => s
  | st :: rest, s => if (turn st s).status = .running then walked rest (turn st s) else turn st s

/-- The walk answers a next state. -/
theorem walk_eq (l : List Stage) (s : State) : walk l s = .next (walked l s) := by
  induction l generalizing s with
  | nil => rfl
  | cons st rest ih =>
    simp only [walk, walked, processStage_eq]
    split
    · exact ih _
    · rfl

/-- What a tick leaves. -/
def ticked (s : State) : State :=
  if s.status = .running then
    (if (walked stageOrder s).status = .running then (walked stageOrder s).endTick else walked stageOrder s)
  else s

/-- A step answers a next state, the tick's. -/
theorem step_eq (s : State) : step s = .next (ticked s) := by
  unfold step tick ticked
  split
  · simp [walk_eq, finishTick]
  · rfl

/-- An empty or waiting slot's turn does nothing (44_pipeline.md R146). -/
theorem turn_notReady {st : Stage} {s : State} (h : ∀ r ce cn f, s.slot st = .occ r ce cn f → ce < cn) :
    turn st s = s := by
  unfold turn
  cases hs : s.slot st with
  | empty => rfl
  | occ r ce cn f =>
    have := h r ce cn f hs
    simp only
    rw [if_neg (by omega)]

/-- A ready occupant whose effect is bound here and has not fired: effect, flag, move. -/
theorem turn_fires {st : Stage} {s : State} {r : Record} {ce cn : Nat} (hs : s.slot st = .occ r ce cn false)
    (hr : cn ≤ ce) (hb : effectStage r.opcode = st) :
    turn st s = (effect r.instr s).afterEffect st r false := by
  unfold turn readyTurn
  simp [hs, hr, hb]

/-- A ready occupant with nothing to apply only moves. -/
theorem turn_moves {st : Stage} {s : State} {r : Record} {ce cn : Nat} {f : Bool}
    (hs : s.slot st = .occ r ce cn f) (hr : cn ≤ ce) (hb : f = true ∨ effectStage r.opcode ≠ st)
    (hrun : s.status = .running) : turn st s = s.advance st r := by
  have hn : ¬ (f = false ∧ effectStage r.opcode = st) := by
    rintro ⟨h1, h2⟩
    rcases hb with h | h
    · simp [h1] at h
    · exact h h2
  unfold turn readyTurn State.afterEffect
  simp [hs, hr, hn, hrun]

/-- The walk over one more stage, when its turn does not end the tick. -/
theorem walked_cons_running {st : Stage} {rest : List Stage} {s : State} (h : (turn st s).status = .running) :
    walked (st :: rest) s = walked rest (turn st s) := by
  simp [walked, h]

/-- The walk over one more stage, when its turn ends the tick. -/
theorem walked_cons_ended {st : Stage} {rest : List Stage} {s : State} (h : (turn st s).status ≠ .running) :
    walked (st :: rest) s = turn st s := by
  simp [walked, h]

/-- A property that every turn of a running state keeps, the walk keeps. -/
theorem walked_induction {P : State → Prop} (hturn : ∀ st s, s.status = .running → P s → P (turn st s))
    (l : List Stage) (s : State) (hs : s.status = .running) (hP : P s) : P (walked l s) := by
  induction l generalizing s with
  | nil => exact hP
  | cons st rest ih =>
    simp only [walked]
    split
    · rename_i h
      exact ih _ h (hturn st s hs hP)
    · exact hturn st s hs hP

end Sys2Proof.Machine
end

