-- ==== Sys2Proof/Tests/Slice0.lean ====
section
/-! SUPPORT. Tests of one line or one instruction each, their expected values from 95_test_vectors.md §3 or
worked by hand from the rule named; and for every statement with hypotheses a witness that meets them. -/

namespace Sys2Proof.Machine

/-! ## WellFormed: an ill-formed term for each check -/

theorem test_wf_addi : (Instr.addi 1 0 64).wellFormed = false := by decide
theorem test_wf_lw : (Instr.lw 1 0 (-65)).wellFormed = false := by decide
theorem test_wf_sw : (Instr.sw 1 0 64).wellFormed = false := by decide
theorem test_wf_beq : (Instr.beq 1 0 (-65)).wellFormed = false := by decide
theorem test_wf_jalr : (Instr.jalr 0 0).wellFormed = false := by decide
theorem test_wf_lui : (Instr.lui 1 1024).wellFormed = false := by decide
theorem test_wf_lli : (Instr.lli 1 64).wellFormed = false := by decide
theorem test_wf_fill : (Instr.fill 32768).wellFormed = false ∧ (Instr.fill (-32769)).wellFormed = false := by decide
/-- A record with a field its opcode does not use is not clean (30_encoding.md R62). -/
theorem test_clean_unused : (Record.clean { bubble with uImmed := 1 }) = false := by decide
/-- An entry 0 makes a latency table not positive (10_state.md R31). -/
theorem test_table_zero : ({ defaultLatency with lw := ⟨1, 1, 2, 0, 1⟩ } : LatencyTable).positive = false := by decide

/-! ## Decode: lines written out character by character (95_test_vectors.md §3.5) -/

theorem test_decode_add : decodeLine ['a', 'd', 'd', ' ', '3', ',', '1', ',', '2'] = .ok (.add 3 1 2) := by decide
theorem test_decode_nand :
    decodeLine ['n', 'a', 'n', 'd', ' ', '2', ',', '1', ',', '7'] = .ok (.nand 2 1 7) := by decide
/-- Signs and leading zeros are accepted (R72): `addi 01,+0,-007`. -/
theorem test_decode_addi :
    decodeLine ['a', 'd', 'd', 'i', ' ', '0', '1', ',', '+', '0', ',', '-', '0', '0', '7'] = .ok (.addi 1 0 (-7)) := by
  decide
theorem test_decode_lw :
    decodeLine ['l', 'w', ' ', '1', ',', '2', ',', '-', '6', '4'] = .ok (.lw 1 2 (-64)) := by decide
theorem test_decode_sw : decodeLine ['s', 'w', ' ', '1', ',', '2', ',', '-', '1'] = .ok (.sw 1 2 (-1)) := by decide
theorem test_decode_beq : decodeLine ['b', 'e', 'q', ' ', '1', ',', '2', ',', '6', '3'] = .ok (.beq 1 2 63) := by decide
theorem test_decode_jalr : decodeLine ['j', 'a', 'l', 'r', ' ', '2', ',', '1'] = .ok (.jalr 2 1) := by decide
theorem test_decode_jalr00 : decodeLine ['j', 'a', 'l', 'r', ' ', '0', '0', ',', '+', '0'] = .ok .jalr00 := by decide
theorem test_decode_lui :
    decodeLine ['l', 'u', 'i', ' ', '2', ',', '1', '0', '2', '3'] = .ok (.lui 2 1023) := by decide
theorem test_decode_nop : decodeLine ['n', 'o', 'p'] = .ok .nop := by decide
/-- Whitespace around the line is trimmed (R70). -/
theorem test_decode_halt : decodeLine [' ', ' ', 'h', 'a', 'l', 't', '\t'] = .ok .halt := by decide
theorem test_decode_lli : decodeLine ['l', 'l', 'i', ' ', '1', ',', '-', '1'] = .ok (.lli 1 (-1)) := by decide
theorem test_decode_fill :
    decodeLine ['.', 'f', 'i', 'l', 'l', ' ', '-', '3', '2', '7', '6', '8'] = .ok (.fill (-32768)) := by decide

/-- Two spaces, an upper-case mnemonic, a comment, a missing operand, a register 8, an immediate 64, a blank
line: all refused (R70 to R75). -/
theorem test_decode_refuses :
    (decodeLine ['a', 'd', 'd', ' ', ' ', '1', ',', '2', ',', '3'] = .error .grammar) ∧
    (decodeLine ['A', 'D', 'D', ' ', '1', ',', '2', ',', '3'] = .error .unknownMnemonic) ∧
    (decodeLine ['n', 'o', 'p', ' ', '#'] = .error .operandCount) ∧
    (decodeLine ['a', 'd', 'd', ' ', '1', ',', '2'] = .error .operandCount) ∧
    (decodeLine ['a', 'd', 'd', ' ', '8', ',', '0', ',', '0'] = .error .outOfRange) ∧
    (decodeLine ['a', 'd', 'd', ' ', '1', ',', '2', ','] = .error .malformedLiteral) ∧
    (decodeLine [' '] = .error .blank) := by decide

/-- The encoder's spelling of one instruction with a sign and one without (log entry 10). -/
theorem test_encode :
    encode (.addi 1 0 (-64)) = ['a', 'd', 'd', 'i', ' ', '1', ',', '0', ',', '-', '6', '4'] ∧
    encode .jalr00 = ['j', 'a', 'l', 'r', ' ', '0', ',', '0'] := by decide

/-- The characters of `halt` and of `add 3,1,2` as bits, the first character lowest (log entry 1). -/
theorem test_table_word :
    decodeTableWord 32 0x746c6168 = some .halt ∧ decodeTableWord 72 0x322c312c3320646461 = some (.add 3 1 2) := by
  decide

/-- The host's placed `halt` is run by the very next step (log entry 7). -/
theorem test_placed_halt_runs : ∃ t, step (State.reset.withFetchWord 32 0x746c6168) = .next t ∧ t.status = .halted :=
  ⟨_, rfl, rfl⟩

/-! ## One instruction (95_test_vectors.md §3.1 to §3.4) -/

/-- A program of N = 2 records: a FILL of 1234 at 0 and a HALT at 1. -/
def testProgram : List Record :=
  [⟨.fill, .none, 0, 0, 0, 0, 0, 1234, 0, []⟩, ⟨.halt, .none, 0, 0, 0, 0, 0, 0, 1, []⟩]

/-- `beq a,b,i` and `jalr a,b` at address `n`, and other records the tests place. -/
def testBeq (a b : RegIndex) (i : Int) (n : Nat) : Record := ⟨.beq, .rri, a, b, 0, i, 0, 0, n, []⟩
def testJalr (a b : RegIndex) (n : Nat) : Record := ⟨.jalr, .rri, a, b, 0, 0, 0, 0, n, []⟩
def testAddi (a b : RegIndex) (i : Int) : Record := ⟨.addi, .rri, a, b, 0, i, 0, 0, 0, []⟩
def testLw (a b : RegIndex) (i : Int) : Record := ⟨.lw, .rri, a, b, 0, i, 0, 0, 0, []⟩
def testSw (a b : RegIndex) (i : Int) : Record := ⟨.sw, .rri, a, b, 0, i, 0, 0, 0, []⟩
def testHalt : Record := ⟨.halt, .none, 0, 0, 0, 0, 0, 0, 1, []⟩
def testFill : Record := ⟨.fill, .none, 0, 0, 0, 0, 0, 1234, 0, []⟩

/-- The program's construction with R1 = x, R2 = y and the given slots; the pc lies behind the program. -/
def testState (x y : Word) (slots : Slots) : State :=
  { State.construct defaultConfig testProgram with regs := #v[0, x, y, 0, 0, 0, 0, 0], pc := 2, slots := slots }

/-- A slot whose occupant is ready and has not fired. -/
def testReady (r : Record) : Slot := .occ r 1 1 false

/-- The next state's answer to a question, if there is a next state. -/
def testAsk {α : Type} (o : Host.Outcome State Fault Refusal) (f : State → α) : Option α :=
  match o with
  | .next t => some (f t)
  | .fault _ => none
  | .refused _ => none

theorem test_add_wraps :
    testAsk (exec (.add 3 1 2) (testState 32767 1 .allEmpty)) (·.readReg 3) = some (-32768) := by decide
theorem test_add_zero : testAsk (exec (.add 0 1 2) (testState 3 4 .allEmpty)) (·.readReg 0) = some 0 := by decide
theorem test_addi_wraps :
    testAsk (exec (.addi 2 1 (-1)) (testState (-32768) 0 .allEmpty)) (·.readReg 2) = some 32767 := by decide
theorem test_nand_bits :
    testAsk (exec (.nand 3 1 2) (testState 255 3855 .allEmpty)) (·.readReg 3) = some (-16) := by decide
theorem test_lui_wraps : testAsk (exec (.lui 1 512) (testState 0 0 .allEmpty)) (·.readReg 1) = some (-32768) := by decide
theorem test_lui_top : testAsk (exec (.lui 1 1023) (testState 0 0 .allEmpty)) (·.readReg 1) = some (-64) := by decide
theorem test_nop : testAsk (exec .nop (testState 5 7 .allEmpty)) (·.regs) = some #v[0, 5, 7, 0, 0, 0, 0, 0] := by decide
theorem test_lli : testAsk (exec (.lli 1 (-1)) (testState 64 0 .allEmpty)) (·.readReg 1) = some 63 := by decide
/-- A FILL word is read as data (20_memory.md R41); EA = N + 1000 faults (R40). -/
theorem test_lw_fill : testAsk (exec (.lw 1 0 0) (testState 0 0 .allEmpty)) (·.readReg 1) = some 1234 := by decide
theorem test_lw_top :
    testAsk (exec (.lw 1 2 2) (testState 0 1000 .allEmpty)) (·.status) = some (.fault .addressOutOfRange) := by decide
/-- EA = N + 999 writes data[999]; EA = 1 < N writes nothing (20_memory.md R42). -/
theorem test_sw_last :
    testAsk (exec (.sw 1 2 1) (testState 7 1000 .allEmpty)) (·.data) = some [(999, 7)] := rfl
theorem test_sw_program :
    testAsk (exec (.sw 1 2 0) (testState 7 1 .allEmpty)) (fun t => (t.data, t.status)) = some ([], .running) := by decide
/-- `beq` at address 2 with offset 1 goes to 4 and puts the bubble into IF (trace 2.2, tick 6). -/
theorem test_beq_taken :
    testAsk (exec (.beq 1 2 1) (testState 3 3 { Slots.allEmpty with rr := testReady (testBeq 1 2 1 2) }))
      (fun t => (t.pc, t.slots.ifetch)) = some (4, .occ bubble 0 1 false) := by decide
theorem test_beq_not_taken :
    testAsk (exec (.beq 1 2 1) (testState 3 4 { Slots.allEmpty with rr := testReady (testBeq 1 2 1 2) })) (·.pc) =
      some 2 := by decide
/-- `jalr 1,1` at address 4: link first, then the jump to the link (42_control.md R121). -/
theorem test_jalr_same :
    testAsk (exec (.jalr 1 1) (testState 9 0 { Slots.allEmpty with rr := testReady (testJalr 1 1 4) }))
      (fun t => (t.readReg 1, t.pc)) = some (5, 5) := by decide
theorem test_jalr_no_link :
    testAsk (exec (.jalr 0 1) (testState 6 0 { Slots.allEmpty with rr := testReady (testJalr 0 1 4) }))
      (fun t => (t.regs, t.pc)) = some (#v[0, 6, 0, 0, 0, 0, 0, 0], 6) := by decide
theorem test_jalr00_halts : testAsk (exec .jalr00 (testState 0 0 .allEmpty)) (·.status) = some .halted := by decide
theorem test_jalr00_jumps :
    testAsk (exec .jalr00 { testState 0 0 { Slots.allEmpty with rr := testReady (testJalr 0 0 4) } with
      config := ⟨defaultLatency, false⟩ }) (fun t => (t.pc, t.status)) = some (0, .running) := by decide
theorem test_halt :
    testAsk (exec .halt (testState 0 0 { Slots.allEmpty with wb := testReady testHalt }))
      (fun t => (t.status, t.slots.wb)) = some (.halted, .empty) := by decide
theorem test_fill :
    testAsk (exec (.fill 7) (testState 0 0 { Slots.allEmpty with wb := testReady testFill }))
      (fun t => (t.status, t.slots.wb)) = some (.fault .fatalMisexecution, testReady testFill) := by decide

/-! ## Witnesses: for each statement with hypotheses, a case that meets them all -/

theorem witness_DecodeInvertsEncode :
    (Instr.addi 1 0 (-64)).wellFormed = true ∧ (Instr.addi 1 0 63).wellFormed = true ∧
    (Instr.lui 1 1023).wellFormed = true ∧ (Instr.fill (-32768)).wellFormed = true ∧
    (Instr.fill 32767).wellFormed = true ∧ (Instr.jalr 0 1).wellFormed = true := by decide

/-- The first clause of IllFormedOperandsAreRefused at the values next to its ranges: ` add 08,0,0` and
`addi 1,0,-65`. -/
theorem witness_IllFormedOperandsAreRefused_literals :
    (Writes [' ', 'a', 'd', 'd', ' ', '0', '8', ',', '0', ',', '0'] .add [8, 0, 0] ∧
      Mnemonic.ranges .add = [(0, 7), (0, 7), (0, 7)] ∧ (7 : Int) < 8) ∧
    Writes ['a', 'd', 'd', 'i', ' ', '1', ',', '0', ',', '-', '6', '5'] .addi [1, 0, -65] ∧
      Mnemonic.ranges .addi = [(0, 7), (0, 7), (-64, 63)] ∧ (-65 : Int) < -64 := by
  have lit (l : Line) (v : Int) (h : parseInt l = some v) : LiteralOf l v := parseInt_eq_some.mp h
  refine ⟨⟨⟨[' '], [], [['0', '8'], ['0'], ['0']], by simp [whitespace], by simp, rfl, ?_⟩, rfl, by decide⟩,
    ⟨[], [], [['1'], ['0'], ['-', '6', '5']], by simp, by simp, rfl, ?_⟩, rfl, by decide⟩
  · exact .cons (lit _ _ (by decide)) (.cons (lit _ _ (by decide)) (.cons (lit _ _ (by decide)) .nil))
  · exact .cons (lit _ _ (by decide)) (.cons (lit _ _ (by decide)) (.cons (lit _ _ (by decide)) .nil))

/-- Its second clause: the pair 0,0 of JALR, and another ill-formed instruction. -/
theorem witness_IllFormedOperandsAreRefused_encoded :
    (Instr.jalr 0 0).wellFormed = false ∧ (Instr.addi 1 0 64).wellFormed = false := by decide

/-- The whitespace, the first and the last character of LinesOutsideTheGrammarAreRefused, for the texts `add 8,0`
and `nop` with a tab before them. -/
theorem witness_LinesOutsideTheGrammarAreRefused_around :
    let t : Line := ['a', 'd', 'd', ' ', '8', ',', '0']
    (∀ c ∈ ['\t'], c ∈ whitespace) ∧ (∀ c, t.head? = some c → c ∉ whitespace) ∧
    (∀ c, t.getLast? = some c → c ∉ whitespace) ∧ ∀ c, ([] : Line).head? = some c → c ∉ whitespace := by
  refine ⟨by simp [whitespace], ?_, ?_, ?_⟩ <;> intro c h <;> cases h <;> decide

/-- Its clauses one by one: `addx` has no space and is no mnemonic; `add 1, 2` has whitespace in its operands;
`ADD` is no spelling; `add 8,0` has two operands; 8 is out of range and `0x1` is no literal. -/
theorem witness_LinesOutsideTheGrammarAreRefused :
    (' ' ∉ ['a', 'd', 'd', 'x'] ∧ ∀ m : Mnemonic, m.ranges = [] → ['a', 'd', 'd', 'x'] ≠ m.spelling) ∧
    (∃ c ∈ ['1', ',', ' ', '2'], c ∈ whitespace) ∧ (∀ m : Mnemonic, ['A', 'D', 'D'] ≠ m.spelling) ∧
    (['8', ',', '0'] = joinCommas [['8'], ['0']] ∧ (∀ x ∈ [['8'], ['0']], ',' ∉ x) ∧
      [['8'], ['0']].length ≠ (Mnemonic.ranges .add).length) ∧
    (∀ v, LiteralOf ['8'] v → v < 0 ∨ 7 < v) ∧ ∀ v, LiteralOf ['0', 'x', '1'] v → v < 0 ∨ 7 < v := by
  refine ⟨⟨by decide, ?_⟩, ⟨' ', by decide, by decide⟩, ?_, ⟨rfl, by simp, by decide⟩, fun v h => ?_, fun v h => ?_⟩
  · intro m _; cases m <;> decide
  · intro m; cases m <;> decide
  · have h8 := parseInt_eq_some.mpr h
    rw [show parseInt ['8'] = some 8 from rfl] at h8
    cases h8
    exact .inr (by decide)
  · have hx := parseInt_eq_some.mpr h
    rw [show parseInt ['0', 'x', '1'] = none from rfl] at hx
    cases hx

theorem witness_SurroundingWhitespaceIsIgnored :
    (∀ c ∈ [' ', '\t'], isSpace c = true) ∧ ∀ c ∈ ['\n'], isSpace c = true :=
  ⟨List.all_eq_true.mp rfl, List.all_eq_true.mp rfl⟩

/-- Also of DecodedInstructionsAreWellFormed: the record of `nop` with whitespace around it. -/
theorem witness_RedecodingTheTextGivesTheRecord :
    decodeRecord true [' ', 'n', 'o', 'p', '\t'] 3 = .ok ⟨.add, .rrr, 0, 0, 0, 0, 0, 0, 3, ['n', 'o', 'p']⟩ := by decide

theorem witness_JalrPairIsReadByValue :
    parseInt ['0', '0'] = some ((0 : RegIndex).val : Int) ∧ parseInt ['+', '0'] = some ((0 : RegIndex).val : Int) ∧
    parseInt ['0', '7'] = some ((7 : RegIndex).val : Int) := by decide

/-- One line too many. -/
theorem witness_LoadBuilds_tooLong : 31768 < (List.replicate 31769 ([] : Line)).length := by
  rw [List.length_replicate]; decide

/-- A good line before a bad one, and a source of good lines. -/
theorem witness_LoadBuilds_bad_and_good :
    decodeLine ['h', 'a', 'l', 't'] = .ok .halt ∧ decodeLine [] = .error .blank ∧
    ([['h', 'a', 'l', 't'], []] : List Line).length ≤ 31768 := by decide

theorem witness_LoadedRecordsAreStampedAndClean :
    ∃ p, Program.load true [['n', 'o', 'p'], ['h', 'a', 'l', 't']] = .ok p ∧
      p.source[1]? = some ⟨.halt, .none, 0, 0, 0, 0, 0, 0, 1, ['h', 'a', 'l', 't']⟩ := ⟨_, rfl, rfl⟩

theorem witness_WrapIsTheCongruentWord : ((-32768 : Word)).toInt = 32768 + 65536 * (-1) := by decide

/-- The destinations of AddWritesTheWrappedSum, AddiWritesTheWrappedSum, NandWritesTheNegatedConjunction and
LuiWritesTheShiftedImmediate. -/
theorem witness_destination : (1 : RegIndex) ≠ 0 ∧ (7 : RegIndex) ≠ 0 := by decide

theorem witness_LliAddsToTheWholeRegister :
    (1 : RegIndex) ≠ 0 ∧ ∃ t, exec (.lui 1 1) (testState 0 0 .allEmpty) = .next t := ⟨by decide, _, rfl⟩

/-- Each clause of UnifiedAddressSpace at the ends of its range; N = 2. -/
theorem witness_UnifiedAddressSpace :
    let s := testState 0 0 .allEmpty
    (-1 : Word).toInt < 0 ∧ (s.programSize : Int) + 1000 ≤ (1002 : Word).toInt ∧
    (0 ≤ (0 : Word).toInt ∧ (1 : Word).toInt < (s.programSize : Int)) ∧
    ((s.programSize : Int) ≤ (2 : Word).toInt ∧ (1001 : Word).toInt < (s.programSize : Int) + 1000) := by decide

theorem witness_WriteThenReadEveryAddress :
    (∃ t, (testState 0 0 .allEmpty).memWrite 1 5 = some t) ∧ ∃ t, (testState 0 0 .allEmpty).memWrite 2 5 = some t :=
  ⟨⟨_, rfl⟩, _, rfl⟩

theorem witness_CanonicalRegionsAreDeterminedByTheirWords :
    Memory.wf [(0, 1), (999, 2)] = true ∧
    ∀ k, k < 1000 → Memory.read [(0, 1), (999, 2)] k = Memory.read [(0, 1), (999, 2)] k :=
  ⟨by decide, fun _ _ => rfl⟩

/-- Each clause of LoadWritesTheWordRead and of StoreWritesOneDataWord at the ends of its range: effective
addresses -1, 1002, 0, 1, 2 and 1001 with N = 2. -/
theorem witness_LoadAndStore :
    let s := testState 1000 (-1) .allEmpty
    let ea := fun (b : RegIndex) (i : Int) => (wrap16 ((s.readReg b).toInt + i)).toInt
    ea 2 0 < 0 ∧ (s.programSize : Int) + 1000 ≤ ea 1 2 ∧
    (ea 2 1 = 0 ∧ ea 2 2 = 1 ∧ ea 2 2 < (s.programSize : Int)) ∧
    (ea 2 3 = 2 ∧ (s.programSize : Int) ≤ ea 2 3) ∧ ea 1 1 < (s.programSize : Int) + 1000 := by decide

theorem witness_BeqAndJalr :
    let s := testState 3 3 { Slots.allEmpty with rr := testReady (testBeq 1 2 1 2) }
    s.slots.rr = .occ (testBeq 1 2 1 2) 1 1 false ∧ s.readReg 1 = s.readReg 2 ∧ s.readReg 1 ≠ s.readReg 3 := by decide

theorem witness_JalrZeroZero :
    (testState 0 0 .allEmpty).config.jalr00IsHalt = true ∧
    ({ testState 0 0 .allEmpty with config := ⟨defaultLatency, false⟩ } : State).config.jalr00IsHalt = false := by decide

theorem witness_HaltEndsTheTickHalted :
    let s := testState 0 0 { Slots.allEmpty with wb := testReady testHalt }
    s.status = .running ∧ ReadyUnfired s.slots.wb testHalt ∧ testHalt.opcode = .halt :=
  ⟨rfl, ⟨1, 1, rfl, Nat.le_refl 1⟩, rfl⟩

theorem witness_FillEndsTheTickFaulted :
    let s := testState 0 0 { Slots.allEmpty with wb := testReady testFill }
    s.status = .running ∧ ReadyUnfired s.slots.wb testFill ∧ testFill.opcode = .fill :=
  ⟨rfl, ⟨1, 1, rfl, Nat.le_refl 1⟩, rfl⟩

/-- Also of LoadWritesTheWordRead's last clause. -/
theorem witness_FaultsEndTheTick_load :
    let s := testState 0 0 { Slots.allEmpty with wb := testReady (testLw 0 0 (-1)) }
    s.status = .running ∧ ReadyUnfired s.slots.wb (testLw 0 0 (-1)) ∧ (testLw 0 0 (-1)).opcode = .lw ∧
      (wrap16 ((s.readReg 0).toInt + (-1))).toInt < 0 :=
  ⟨rfl, ⟨1, 1, rfl, Nat.le_refl 1⟩, rfl, by decide⟩

theorem witness_FaultsEndTheTick_store :
    ∃ u, processStage .wb (testState 0 0 { Slots.allEmpty with
        wb := testReady (testAddi 1 0 5), me := testReady (testSw 0 0 (-1)) }) = .next u ∧
      u.status = .running ∧ u.readReg 1 = 5 ∧ ReadyUnfired u.slots.me (testSw 0 0 (-1)) ∧
      (wrap16 ((u.readReg 0).toInt + (-1))).toInt < 0 :=
  ⟨_, rfl, rfl, rfl, ⟨1, 1, rfl, Nat.le_refl 1⟩, by decide⟩

theorem witness_TerminalStatusAbsorbs :
    Status.halted ≠ .running ∧ Status.drained ≠ .running ∧ Status.fault .fatalMisexecution ≠ .running := by decide

/-- A line, its record in RR, the walk as far as RR. -/
theorem witness_StepRunsTheDecodedInstruction :
    let l : Line := ['b', 'e', 'q', ' ', '1', ',', '2', ',', '1']
    let r : Record := ⟨.beq, .rri, 1, 2, 0, 1, 0, 0, 2, l⟩
    let s := testState 3 3 { Slots.allEmpty with rr := testReady r }
    decodeLine l = .ok (.beq 1 2 1) ∧ decodeRecord s.config.jalr00IsHalt l 2 = .ok r ∧ s.status = .running ∧
    stageOrder = [.wb, .me, .ex] ++ .rr :: [.ifetch] ∧ walk [.wb, .me, .ex] s = .next s ∧
    s.slot .rr = .occ r 1 1 false ∧ effectStage r.opcode = .rr := by
  refine ⟨by decide, by decide, rfl, rfl, rfl, rfl, rfl⟩

/-- The three cases of RefillFetchesAtThePc, at the ends of the program, and a walk that does not end the tick. -/
theorem witness_RefillFetchesAtThePc :
    let s := testState 0 0 .allEmpty
    testAsk (walk stageOrder s) (·.status) = some .running ∧
    s.slots.ifetch = .empty ∧ s.programSize ≤ s.pc.toNat ∧ (1 : Word).toNat < s.programSize ∧
    (testState 0 0 { Slots.allEmpty with ifetch := testReady testHalt }).slots.ifetch = .occ testHalt 1 1 false := by
  decide

/-- Also of CountersSaturateAtTheEndOfTheTick: a slot that counts and one that is Empty. -/
theorem witness_CountersSaturate :
    (testState 0 0 { Slots.allEmpty with ex := .occ testHalt 1 1 false }).refill.slot .ex = .occ testHalt 1 1 false ∧
    (testState 0 0 .allEmpty).refill.slot .ifetch = .empty := ⟨rfl, rfl⟩

/-- Also of ReadyOccupantsAdvanceOneStage: a ready HALT in EX, with ME Empty and with ME taken. -/
theorem witness_EffectsAreBoundToOneStage :
    let s := testState 0 0 { Slots.allEmpty with ex := testReady testHalt }
    let b := testState 0 0 { Slots.allEmpty with ex := testReady testHalt, me := testReady testHalt }
    s.status = .running ∧ s.slot .ex = .occ testHalt 1 1 false ∧ effectStage testHalt.opcode ≠ .ex ∧
    nextStage .ex = some .me ∧ s.slot .me = .empty ∧ b.slot .ex = .occ testHalt 1 1 false ∧ b.slot .me ≠ .empty := by
  decide

/-- A record that leaves WB with its flag set, the other case of ReadyOccupantsAdvanceOneStage. -/
theorem witness_AdvanceOutOfWb :
    (testState 0 0 { Slots.allEmpty with wb := .occ testHalt 1 1 true }).slot .wb = .occ testHalt 1 1 true := rfl

theorem witness_UnreadySlotsDoNothing :
    ∀ r ce cn f, (testState 0 0 { Slots.allEmpty with ex := .occ testHalt 1 2 false }).slot .ex = .occ r ce cn f →
      ce < cn := by
  intro r ce cn f h
  cases h
  decide

/-- A BEQ in RR behind a taken EX: it fires and stays, and then stands there with its flag set. -/
theorem witness_EffectsFireOnce :
    let slots := { Slots.allEmpty with rr := testReady (testBeq 1 2 1 2), ex := .occ testHalt 1 2 false }
    let s := testState 3 4 slots
    s.status = .running ∧ nextStage .rr = some .ex ∧ s.slot .rr = .occ (testBeq 1 2 1 2) 1 1 false ∧
    s.slot .ex = .occ testHalt 1 2 false ∧ exec (testBeq 1 2 1 2).instr s = .next s ∧
    (testState 3 4 { slots with rr := .occ (testBeq 1 2 1 2) 1 1 true }).slot .rr =
      .occ (testBeq 1 2 1 2) 1 1 true := ⟨rfl, rfl, rfl, rfl, rfl, rfl⟩

/-- A one-line program with its ADDI in EX after `ce` ticks of 2. -/
def testExState (ce : Nat) : State :=
  { State.construct defaultConfig [testAddi 1 0 5] with
    pc := 1, slots := { Slots.allEmpty with ex := .occ (testAddi 1 0 5) ce 2 false } }

/-- It has the invariant: also the witness of StepKeepsTheInvariant. -/
theorem witness_invariant (ce : Nat) (h : ce ≤ 2) : (testExState ce).Inv where
  zero_register := rfl
  data_wf := rfl
  admitted := by show 1 ≤ 31768; decide
  addresses := by
    intro k r hk
    cases k with
    | zero => cases hk; rfl
    | succ k => cases hk
  clean := by
    intro r hr
    rw [List.mem_singleton.mp hr]
    decide
  table := by show defaultLatency.positive = true; decide
  slots := by
    intro st r c n f hs
    cases st <;> cases hs
    exact ⟨by decide, h, .inr (List.mem_singleton.mpr rfl), fun e => Bool.noConfusion e, .inl rfl⟩
  drained := fun e => Status.noConfusion e
  halted := fun e => Status.noConfusion e

/-- Both clauses of OldestOccupantIsNeverBlocked. -/
theorem witness_OldestOccupantIsNeverBlocked :
    ((testExState 1).Inv ∧ ∃ t, step (testExState 1) = .next t ∧ t.status = .running) ∧
    ((testExState 2).Inv ∧ ∃ t, step (testExState 2) = .next t ∧ t.status = .running) ∧
    stageOrder = [.wb, .me] ++ .ex :: [.rr, .ifetch] ∧ nextStage .ex = some .me ∧
    ∀ su ∈ [Stage.wb, .me], (testExState 1).slot su = .empty ∧ (testExState 2).slot su = .empty :=
  ⟨⟨witness_invariant 1 (by decide), _, rfl, rfl⟩, ⟨witness_invariant 2 (by decide), _, rfl, rfl⟩, rfl, rfl, by decide⟩

/-- Also of CycleCountsTicksAndIsNeverRead and ProgramAndConfigurationNeverChange. -/
theorem witness_DrainedExactlyWhenEmpty :
    ∃ t, step (testState 0 0 .allEmpty) = .next t ∧ t.status = .drained ∧ t.cycle = 1 := ⟨_, rfl, rfl, rfl⟩

theorem witness_OnlyAReadyStoreChangesData :
    ∃ t, step (testState 7 1000 { Slots.allEmpty with me := testReady (testSw 1 2 1) }) = .next t ∧
      Memory.read t.data 999 ≠ 0 := ⟨_, rfl, by decide⟩

theorem witness_OnlyWritersChangeRegisters :
    (∃ t, step (testState 0 0 { Slots.allEmpty with wb := testReady (testAddi 1 0 5) }) = .next t ∧
      t.readReg 1 ≠ 0) ∧
    ∃ t, step (testState 0 0 { Slots.allEmpty with rr := testReady (testJalr 7 1 4) }) = .next t ∧ t.readReg 7 ≠ 0 :=
  ⟨⟨_, rfl, by decide⟩, _, rfl, by decide⟩

/-- A step with no BEQ or JALR ready in RR. -/
theorem witness_OnlyRefillAndControlMoveThePc :
    (∃ t, step (State.construct defaultConfig testProgram) = .next t ∧ t.pc = 1) ∧
    ∀ r, ReadyUnfired (State.construct defaultConfig testProgram).slots.rr r → r.opcode ≠ .beq ∧ r.opcode ≠ .jalr :=
  ⟨⟨_, rfl, rfl⟩, fun _ ⟨_, _, h, _⟩ => Slot.noConfusion h⟩

theorem witness_ConstructionHasTheInvariant :
    (∃ p, Program.load true [['h', 'a', 'l', 't']] = .ok p) ∧ defaultLatency.positive = true :=
  ⟨⟨_, rfl⟩, by decide⟩

/-- Two states that differ in a display text. -/
theorem witness_DisplayTextsInfluenceNothing :
    let s := testState 0 0 { Slots.allEmpty with ex := testReady testHalt }
    let s' := testState 0 0 { Slots.allEmpty with ex := testReady { testHalt with text := ['h'] } }
    s ≠ s' ∧ s.forgetText = s'.forgetText ∧ (∃ t, step s = .next t) ∧ ∃ t, step s' = .next t :=
  ⟨by decide, rfl, ⟨_, rfl⟩, _, rfl⟩

/-- A contiguous chain: an ADDI of 5 to R1 in WB, others in ME and EX, and a BEQ of R1 and R2 in RR, with R2 = 5
and with R2 = 0: both clauses. -/
theorem witness_BranchSeesTheWriteBackOfItsTick :
    let slots := { Slots.allEmpty with
      wb := testReady (testAddi 1 0 5), me := testReady (testAddi 3 0 1), ex := .occ (testAddi 4 0 1) 2 2 false,
      rr := testReady (testBeq 1 2 1 2) }
    (∃ v t, exec (testAddi 1 0 5).instr (testState 0 5 slots) = .next v ∧ v.status = .running ∧
      v.readReg 1 = v.readReg 2 ∧ step (testState 0 5 slots) = .next t ∧ t.status = .running) ∧
    (∃ v t, exec (testAddi 1 0 5).instr (testState 0 0 slots) = .next v ∧ v.status = .running ∧
      v.readReg 1 ≠ v.readReg 2 ∧ step (testState 0 0 slots) = .next t ∧ t.status = .running) ∧
    ReadyUnfired slots.wb (testAddi 1 0 5) ∧ ReadyUnfired slots.rr (testBeq 1 2 1 2) ∧
    effectStage (testAddi 1 0 5).opcode = .wb :=
  ⟨⟨_, _, rfl, rfl, by decide, rfl, rfl⟩, ⟨_, _, rfl, rfl, by decide, rfl, rfl⟩, ⟨1, 1, rfl, Nat.le_refl 1⟩,
    ⟨1, 1, rfl, Nat.le_refl 1⟩, rfl⟩

/-- The ADDI is still in EX: the BEQ compares the old R1 = 0 with R2 = 0 or R2 = 5. -/
theorem witness_BranchReadsRegistersWithoutForwarding :
    let slots := { Slots.allEmpty with ex := .occ (testAddi 1 0 5) 2 2 false, rr := testReady (testBeq 1 2 1 2) }
    (∃ t, step (testState 0 0 slots) = .next t ∧ t.status = .running) ∧
    (∃ t, step (testState 0 5 slots) = .next t ∧ t.status = .running) ∧
    (testState 0 0 slots).readReg 1 = (testState 0 0 slots).readReg 2 ∧
    (testState 0 5 slots).readReg 1 ≠ (testState 0 5 slots).readReg 2 ∧
    (∀ w, ¬ ReadyUnfired slots.wb w) ∧ ReadyUnfired slots.rr (testBeq 1 2 1 2) :=
  ⟨⟨_, rfl, rfl⟩, ⟨_, rfl, rfl⟩, by decide, by decide, fun _ ⟨_, _, h, _⟩ => Slot.noConfusion h,
    ⟨1, 1, rfl, Nat.le_refl 1⟩⟩

/-- A taken branch whose target is the last record, and one whose target lies behind the program. -/
theorem witness_TakenBranchLeavesOneBubble :
    let slots := fun i => { Slots.allEmpty with rr := testReady (testBeq 1 2 i 0), ifetch := testReady testHalt }
    (testState 3 3 (slots 0)).status = .running ∧ defaultConfig.latency.positive = true ∧
    (testState 3 3 (slots 0)).readReg 1 = (testState 3 3 (slots 0)).readReg 2 ∧
    ReadyUnfired (slots 0).rr (testBeq 1 2 0 0) ∧ ReadyUnfired (slots 1).rr (testBeq 1 2 1 0) ∧
    (slots 0).ifetch = .occ testHalt 1 1 false ∧
    (wrap16 ((0 : Int) + 1 + 0)).toNat < (testState 3 3 (slots 0)).programSize ∧
    (testState 3 3 (slots 1)).programSize ≤ (wrap16 ((0 : Int) + 1 + 1)).toNat :=
  ⟨rfl, by decide, by decide, ⟨1, 1, rfl, Nat.le_refl 1⟩, ⟨1, 1, rfl, Nat.le_refl 1⟩, rfl, by decide, by decide⟩

/-- A lone ADDI and a lone HALT, just fetched. -/
theorem witness_LoneInstructionRetiresOnTime :
    let alone := fun r => testState 0 0 { Slots.allEmpty with ifetch := .occ r 1 1 false }
    (∃ v, exec (testAddi 1 0 5).instr (alone (testAddi 1 0 5)) = .next v ∧ v.status = .running) ∧
    (∃ v, exec testHalt.instr (alone testHalt) = .next v ∧ testHalt.opcode = .halt) ∧
    (alone testHalt).status = .running ∧ (alone testHalt).programSize ≤ (alone testHalt).pc.toNat ∧
    defaultConfig.latency.entry .addi .ifetch = 1 ∧ defaultConfig.latency.entry .halt .ifetch = 1 ∧
    effectStage (testAddi 1 0 5).opcode = .wb ∧ effectStage testHalt.opcode = .wb :=
  ⟨⟨_, rfl, rfl⟩, ⟨_, rfl, rfl⟩, rfl, by decide, rfl, rfl, rfl, rfl⟩

end Sys2Proof.Machine
end

section
/-! PROOFS. 10_state.md R37: the state that construction leaves, field by field. -/

namespace Sys2Proof.Machine

/-- Every register of a constructed machine reads 0. -/
@[simp] theorem construct_readReg (config : Config) (source : List Record) (q : RegIndex) :
    (State.construct config source).readReg q = 0 := by
  simp [State.construct, State.readReg]

/-- Every slot of a constructed machine is Empty. -/
@[simp] theorem construct_slot (config : Config) (source : List Record) (st : Stage) :
    (State.construct config source).slot st = .empty :=
  Slots.get_allEmpty st

/-- Settles O48, from the construction's own fields. -/
theorem constructionState : Obligations.ConstructionState := by
  unfold Obligations.ConstructionState
  refine ⟨rfl, fun p table => ?_⟩
  have hregs (q : RegIndex) : (Pipeline.new p table).readReg q = 0 := construct_readReg _ _ q
  have hslots (st : Stage) : (Pipeline.new p table).slot st = .empty := construct_slot _ _ st
  exact ⟨hregs, rfl, memory_read_nil, rfl, hslots, rfl, rfl, rfl⟩

end Sys2Proof.Machine
end

section
/-! PROOFS. 10_state.md R29: the cycle counter. What counts it: an effect that ends the tick, and the end of a tick
that no effect has ended. That nothing reads it: every operation commutes with a shift of the counter. -/

namespace Sys2Proof.Machine

/-! ### A tick counts one cycle -/

/-- An effect either leaves status and cycle counter alone, or ends the tick and counts it. -/
theorem effect_status_cycle_cases (i : Instr) (s : State) :
    ((effect i s).status = s.status ∧ (effect i s).cycle = s.cycle) ∨
    ((effect i s).status ≠ .running ∧ (effect i s).cycle = s.cycle + 1) := by
  have hjump (a b : RegIndex) : (s.jumpAndLink a b).status = s.status ∧ (s.jumpAndLink a b).cycle = s.cycle := by
    simp [jumpAndLink_eq]
  cases i with
  | lw a b n =>
    rcases load_cases s a (s.effectiveAddress b n) with ⟨-, e⟩ | ⟨-, e⟩ <;> simp [effect, e]
  | sw a b n =>
    rcases store_cases s (s.effectiveAddress b n) (s.readReg a) with ⟨-, e⟩ | ⟨-, -, e⟩ | ⟨-, -, e⟩ <;>
      simp [effect, e]
  | beq a b n => left; simp only [effect]; split <;> simp
  | jalr a b => exact .inl (hjump a b)
  | jalr00 =>
    simp only [effect]
    split
    · simp
    · exact .inl (hjump 0 0)
  | halt | fill v => right; simp [effect]
  | add a b c | nop => left; simp [effect, State.addRegisters]
  | addi a b n | lli a n => left; simp [effect, State.addImmediate]
  | nand a b c | lui a u => left; simp [effect]

/-- A tick that began at cycle `n` has reached `s`: the counter stands at `n` while the tick goes on, and at `n + 1`
once an effect has ended it. -/
def State.CountedFrom (n : Nat) (s : State) : Prop :=
  (s.status = .running ∧ s.cycle = n) ∨ (s.status ≠ .running ∧ s.cycle = n + 1)

/-- An effect in a running state counts the tick exactly if it ends it. -/
theorem effect_countedFrom (i : Instr) {n : Nat} {s : State} (hrun : s.status = .running) (hn : s.cycle = n) :
    (effect i s).CountedFrom n := by
  subst hn
  rcases effect_status_cycle_cases i s with ⟨hs, hc⟩ | hended
  · exact .inl ⟨hs.trans hrun, hc⟩
  · exact .inr hended

/-- The flag and the move leave the count as the effect left it. -/
theorem afterEffect_countedFrom {n : Nat} {s : State} (st : Stage) (r : Record) (fired : Bool)
    (h : s.CountedFrom n) : (s.afterEffect st r fired).CountedFrom n := by
  have hsame : (s.afterEffect st r fired).status = s.status ∧ (s.afterEffect st r fired).cycle = s.cycle := by
    unfold State.afterEffect
    split
    · split <;> simp
    · exact ⟨rfl, rfl⟩
  unfold State.CountedFrom at h ⊢
  rwa [hsame.1, hsame.2]

/-- One stage's turn in a running state counts the tick exactly if it ends it. -/
theorem turn_countedFrom (st : Stage) {n : Nat} {s : State} (hrun : s.status = .running)
    (h : s.CountedFrom n) : (turn st s).CountedFrom n := by
  have hn : s.cycle = n := h.elim (·.2) fun hended => absurd hrun hended.1
  unfold turn
  split
  · exact h
  · split
    · unfold readyTurn
      split
      · exact afterEffect_countedFrom _ _ _ (effect_countedFrom _ hrun hn)
      · exact afterEffect_countedFrom _ _ _ h
    · exact h

/-- A performed tick counts exactly one cycle, whether its end or an effect counts it. -/
theorem ticked_cycle_of_running {s : State} (hrun : s.status = .running) : (ticked s).cycle = s.cycle + 1 := by
  have hwalk : (walked stageOrder s).CountedFrom s.cycle :=
    walked_induction (P := State.CountedFrom s.cycle) (fun st _ hr h => turn_countedFrom st hr h) stageOrder s hrun
      (.inl ⟨hrun, rfl⟩)
  unfold ticked
  rw [if_pos hrun]
  rcases hwalk with ⟨hstill, hc⟩ | ⟨hended, hc⟩
  · rw [if_pos hstill, endTick_cycle, hc]
  · rw [if_neg hended, hc]

/-- A terminal status absorbs the call: nothing changes (44_pipeline.md R162). -/
theorem ticked_of_not_running {s : State} (h : s.status ≠ .running) : ticked s = s := if_neg h

/-! ### The counter is never read -/

/-- The state with `d` more cycles on its counter. -/
def State.addCycles (s : State) (d : Nat) : State := { s with cycle := s.cycle + d }

@[simp] theorem addCycles_regs (s : State) (d : Nat) : (s.addCycles d).regs = s.regs := rfl
@[simp] theorem addCycles_pc (s : State) (d : Nat) : (s.addCycles d).pc = s.pc := rfl
@[simp] theorem addCycles_source (s : State) (d : Nat) : (s.addCycles d).source = s.source := rfl
@[simp] theorem addCycles_data (s : State) (d : Nat) : (s.addCycles d).data = s.data := rfl
@[simp] theorem addCycles_slots (s : State) (d : Nat) : (s.addCycles d).slots = s.slots := rfl
@[simp] theorem addCycles_slot (s : State) (d : Nat) (st : Stage) : (s.addCycles d).slot st = s.slot st := rfl
@[simp] theorem addCycles_cycle (s : State) (d : Nat) : (s.addCycles d).cycle = s.cycle + d := rfl
@[simp] theorem addCycles_status (s : State) (d : Nat) : (s.addCycles d).status = s.status := rfl
@[simp] theorem addCycles_config (s : State) (d : Nat) : (s.addCycles d).config = s.config := rfl

/-! What reads the state does not see the shift. -/

@[simp] theorem addCycles_readReg (s : State) (d : Nat) (q : RegIndex) : (s.addCycles d).readReg q = s.readReg q := rfl
@[simp] theorem addCycles_effectiveAddress (s : State) (d : Nat) (b : RegIndex) (i : Int) :
    (s.addCycles d).effectiveAddress b i = s.effectiveAddress b i := rfl
@[simp] theorem addCycles_controlAddress (s : State) (d : Nat) :
    (s.addCycles d).controlAddress = s.controlAddress := rfl
@[simp] theorem addCycles_registersEqual (s : State) (d : Nat) (a b : RegIndex) :
    (s.addCycles d).registersEqual a b = s.registersEqual a b := rfl
@[simp] theorem addCycles_memRead (s : State) (d : Nat) (a : Word) : (s.addCycles d).memRead a = s.memRead a := rfl
@[simp] theorem addCycles_fetch (s : State) (d : Nat) (p : Word) : (s.addCycles d).fetch p = s.fetch p := rfl

/-! What changes the state commutes with the shift. -/

@[simp] theorem addCycles_setSlot (s : State) (d : Nat) (st : Stage) (x : Slot) :
    (s.addCycles d).setSlot st x = (s.setSlot st x).addCycles d := rfl

@[simp] theorem addCycles_writeReg (s : State) (d : Nat) (a : RegIndex) (v : Word) :
    (s.addCycles d).writeReg a v = (s.writeReg a v).addCycles d := by
  unfold State.writeReg; split <;> rfl

@[simp] theorem addCycles_takeFault (s : State) (d : Nat) (k : Fault) :
    (s.addCycles d).takeFault k = (s.takeFault k).addCycles d := by
  simp [State.takeFault, State.addCycles, Nat.add_right_comm]

@[simp] theorem addCycles_halt (s : State) (d : Nat) : (s.addCycles d).halt = s.halt.addCycles d := by
  simp [State.halt, State.addCycles, Nat.add_right_comm]

@[simp] theorem addCycles_squash (s : State) (d : Nat) : (s.addCycles d).squash = s.squash.addCycles d := by
  rw [squash_eq, squash_eq]; rfl

@[simp] theorem addCycles_jumpTo (s : State) (d : Nat) (w : Word) :
    (s.addCycles d).jumpTo w = (s.jumpTo w).addCycles d :=
  addCycles_squash { s with pc := w } d

@[simp] theorem addCycles_jumpAndLink (s : State) (d : Nat) (a b : RegIndex) :
    (s.addCycles d).jumpAndLink a b = (s.jumpAndLink a b).addCycles d := by
  simp [jumpAndLink_eq]

@[simp] theorem addCycles_load (s : State) (d : Nat) (a : RegIndex) (addr : Word) :
    (s.addCycles d).load a addr = (s.load a addr).addCycles d := by
  unfold State.load
  rw [addCycles_memRead]
  cases s.memRead addr <;> simp

theorem addCycles_memWrite (s : State) (d : Nat) (a v : Word) :
    (s.addCycles d).memWrite a v = (s.memWrite a v).map (·.addCycles d) := by
  have hrange : (s.addCycles d).outOfRange a = s.outOfRange a := rfl
  have hsize : (s.addCycles d).programSize = s.programSize := rfl
  unfold State.memWrite
  rw [hrange, hsize]
  split
  · rfl
  · split <;> rfl

@[simp] theorem addCycles_store (s : State) (d : Nat) (addr v : Word) :
    (s.addCycles d).store addr v = (s.store addr v).addCycles d := by
  unfold State.store
  rw [addCycles_memWrite]
  cases s.memWrite addr v <;> simp

/-- No effect reads the cycle counter. -/
theorem addCycles_effect (i : Instr) (s : State) (d : Nat) :
    effect i (s.addCycles d) = (effect i s).addCycles d := by
  cases i with
  | beq a b n | jalr00 => simp [effect, apply_ite (State.addCycles · d)]
  | add a b c | nop => simp [effect, State.addRegisters]
  | addi a b n | lli a n => simp [effect, State.addImmediate]
  | _ => simp [effect]

@[simp] theorem addCycles_markFired (s : State) (d : Nat) (st : Stage) :
    (s.addCycles d).markFired st = (s.markFired st).addCycles d := by
  unfold State.markFired
  rw [addCycles_slot]
  cases s.slot st <;> rfl

@[simp] theorem addCycles_advance (s : State) (d : Nat) (st : Stage) (r : Record) :
    (s.addCycles d).advance st r = (s.advance st r).addCycles d := by
  unfold State.advance
  cases nextStage st with
  | none => rfl
  | some down =>
    simp only [addCycles_slot]
    cases s.slot down <;> rfl

theorem addCycles_afterEffect (s : State) (d : Nat) (st : Stage) (r : Record) (fired : Bool) :
    (s.addCycles d).afterEffect st r fired = (s.afterEffect st r fired).addCycles d := by
  unfold State.afterEffect
  rw [addCycles_status]
  split
  · split <;> simp
  · rfl

/-- No stage's turn reads the cycle counter. -/
theorem addCycles_turn (st : Stage) (s : State) (d : Nat) : turn st (s.addCycles d) = (turn st s).addCycles d := by
  unfold turn
  rw [addCycles_slot]
  cases s.slot st with
  | empty => rfl
  | occ r ce cn fired =>
    simp only [readyTurn, addCycles_effect, addCycles_afterEffect]
    split
    · split <;> rfl
    · rfl

/-- No walk reads the cycle counter. -/
theorem addCycles_walked (l : List Stage) (s : State) (d : Nat) :
    walked l (s.addCycles d) = (walked l s).addCycles d := by
  induction l generalizing s with
  | nil => rfl
  | cons st rest ih =>
    simp only [walked, addCycles_turn, addCycles_status, ih]
    split <;> rfl

@[simp] theorem addCycles_refill (s : State) (d : Nat) : (s.addCycles d).refill = s.refill.addCycles d := by
  unfold State.refill
  rw [addCycles_slots, addCycles_pc, addCycles_fetch]
  cases s.slots.ifetch with
  | occ r ce cn fired => rfl
  | empty => cases s.fetch s.pc <;> rfl

theorem addCycles_endTick (s : State) (d : Nat) : (s.addCycles d).endTick = s.endTick.addCycles d := by
  unfold State.endTick
  simp only [addCycles_refill]
  have hcount : s.refill.cycle + d + 1 = s.refill.cycle + 1 + d := Nat.add_right_comm ..
  simp only [addCycles_slots, addCycles_cycle, hcount]
  split <;> rfl

/-- No tick reads the cycle counter. -/
theorem addCycles_ticked (s : State) (d : Nat) : ticked (s.addCycles d) = (ticked s).addCycles d := by
  simp only [ticked, addCycles_walked, addCycles_endTick, addCycles_status]
  split
  · split <;> rfl
  · rfl

/-- With any other start value the tick leaves the same state, its counter moved on by as much. Both runs are shifts
of the run that starts at 0. -/
theorem ticked_setCycle (s : State) (c : Nat) :
    ticked { s with cycle := c } = { ticked s with cycle := c + ((ticked s).cycle - s.cycle) } := by
  have hfrom0 (k : Nat) : ticked { s with cycle := k } = (ticked { s with cycle := 0 }).addCycles k := by
    rw [← addCycles_ticked]
    simp [State.addCycles]
  have hs : ticked s = (ticked { s with cycle := 0 }).addCycles s.cycle := hfrom0 s.cycle
  rw [hfrom0 c, hs, addCycles_cycle, Nat.add_sub_cancel, Nat.add_comm]
  rfl

/-- Settles O40: one count per performed tick by an invariant of the walk, and noninterference by commuting every
operation with a shift of the counter. -/
theorem cycleCountsTicksAndIsNeverRead : Obligations.CycleCountsTicksAndIsNeverRead := by
  unfold Obligations.CycleCountsTicksAndIsNeverRead
  refine ⟨fun _ _ => rfl, fun _ => rfl, fun s t hstep => ?_⟩
  have ht : ticked s = t := Host.Outcome.next.inj ((step_eq s).symm.trans hstep)
  subst ht
  refine ⟨ticked_cycle_of_running, fun hended => congrArg State.cycle (ticked_of_not_running hended), fun c => ?_⟩
  rw [step_eq, ticked_setCycle]

end Sys2Proof.Machine
end

section
/-! PROOFS. 20_memory.md R40 to R42: what a read and a write do in each part of the unified address space. -/

namespace Sys2Proof.Machine

/-- 20_memory.md R40: the addresses that refer to nothing. -/
theorem outOfRange_iff (s : State) (a : Word) :
    s.outOfRange a = true ↔ a.toInt < 0 ∨ (s.programSize : Int) + 1000 ≤ a.toInt :=
  decide_eq_true_iff

/-- 20_memory.md R40: the addresses of the program and of the data region. -/
theorem inRange_iff (s : State) (a : Word) :
    s.outOfRange a = false ↔ 0 ≤ a.toInt ∧ a.toInt < (s.programSize : Int) + 1000 := by
  rw [← Bool.not_eq_true, outOfRange_iff, not_or, not_lt, not_le]

/-- 20_memory.md R41: a FILL record reads as its word, any other record as 0. -/
theorem asData_eq (r : Record) : Record.asData r = if r.opcode = .fill then wrap16 r.fillValue else 0 := by
  unfold Record.asData
  cases r.opcode <;> simp

/-- Below N the word at an address is the data reading of the record there. -/
theorem wordAt_of_program {s : State} {k : Nat} (h : k < s.programSize) :
    ∃ r, s.source[k]? = some r ∧ s.wordAt k = Record.asData r := by
  have hr : s.source[k]? = some s.source[k] := List.getElem?_eq_getElem h
  exact ⟨s.source[k], hr, by simp only [State.wordAt, hr]⟩

/-- From N on the word at an address is the data word. -/
theorem wordAt_of_data {s : State} {k : Nat} (h : s.programSize ≤ k) :
    s.wordAt k = Memory.read s.data (k - s.programSize) := by
  have hr : s.source[k]? = none := List.getElem?_eq_none h
  simp only [State.wordAt, hr]

/-- A read out of range answers nothing. -/
theorem memRead_of_outOfRange {s : State} {a : Word} (h : s.outOfRange a = true) : s.memRead a = none :=
  if_pos h

/-- A read in range answers the word at the address. -/
theorem memRead_of_inRange {s : State} {a : Word} (h : s.outOfRange a = false) :
    s.memRead a = some (s.wordAt a.toNat) := by
  simp [State.memRead, h]

/-- A write out of range answers nothing. -/
theorem memWrite_of_outOfRange {s : State} {a : Word} (v : Word) (h : s.outOfRange a = true) :
    s.memWrite a v = none :=
  if_pos h

/-- 20_memory.md R42: a write below N is ignored. -/
theorem memWrite_of_program {s : State} {a : Word} (v : Word) (h : s.outOfRange a = false)
    (hk : a.toNat < s.programSize) : s.memWrite a v = some s := by
  simp [State.memWrite, h, hk]

/-- 20_memory.md R42: a write in range from N on changes one data word. -/
theorem memWrite_of_data {s : State} {a : Word} (v : Word) (h : s.outOfRange a = false)
    (hk : s.programSize ≤ a.toNat) :
    s.memWrite a v = some { s with data := Memory.write s.data (a.toNat - s.programSize) v } := by
  simp [State.memWrite, h, hk]

/-- Settles O17, one part of the address map after the other. In range the signed and the unsigned value of the
address agree, so R40's signed comparisons choose the model's case. -/
theorem unifiedAddressSpace : Obligations.UnifiedAddressSpace := by
  unfold Obligations.UnifiedAddressSpace
  intro s a v
  refine ⟨fun hout => ?unmapped, fun hnonneg hbelow => ?program, fun hfrom hbound => ?data⟩
  case unmapped =>
    have ho : s.outOfRange a = true := (outOfRange_iff s a).2 hout
    exact ⟨memRead_of_outOfRange ho, memWrite_of_outOfRange v ho⟩
  case program =>
    have hin : s.outOfRange a = false := (inRange_iff s a).2 ⟨hnonneg, by omega⟩
    obtain ⟨-, -, hcast⟩ := inRange_bounds hin
    have hk : a.toNat < s.programSize := by omega
    obtain ⟨r, hr, hword⟩ := wordAt_of_program hk
    have hindex : a.toInt.toNat = a.toNat := by omega
    refine ⟨memWrite_of_program v hin hk, r, by rw [hindex, hr], ?_⟩
    rw [memRead_of_inRange hin, hword, asData_eq]
  case data =>
    have hin : s.outOfRange a = false := (inRange_iff s a).2 ⟨by omega, hbound⟩
    obtain ⟨-, -, hcast⟩ := inRange_bounds hin
    have hk : s.programSize ≤ a.toNat := by omega
    have hindex : (a.toInt - (s.programSize : Int)).toNat = a.toNat - s.programSize := by omega
    rw [hindex]
    exact ⟨by rw [memRead_of_inRange hin, wordAt_of_data hk], memWrite_of_data v hin hk⟩

end Sys2Proof.Machine
end

section
/-! PROOFS. 30_encoding.md R70 to R75, R92: the decoder accepts exactly the grammar. One fact per part of the decoder:
trimming, the split at the space and at the commas, the mnemonics, one operand, and each shape of an operand list. -/

namespace Sys2Proof

/-! ### Trimming (30_encoding.md R70) -/

/-- Whitespace after a line is trimmed with the line's own. -/
theorem trimEnd_append_space (l : Line) {back : Line} (hb : ∀ c ∈ back, isSpace c = true) :
    trimEnd (l ++ back) = trimEnd l := by
  unfold trimEnd
  rw [List.reverse_append, List.dropWhile_append_of_pos fun c hc => hb c (List.mem_reverse.mp hc)]

/-- Trimming the end takes off whitespace only. -/
theorem exists_trimEnd_append (l : Line) : ∃ back, (∀ c ∈ back, isSpace c = true) ∧ l = trimEnd l ++ back := by
  refine ⟨(l.reverse.takeWhile isSpace).reverse, fun c hc => List.mem_takeWhile_imp (List.mem_reverse.mp hc), ?_⟩
  unfold trimEnd
  rw [← List.reverse_append, List.takeWhile_append_dropWhile, List.reverse_reverse]

/-- Whitespace around a line is trimmed with the line's own. -/
theorem trim_append_space {front back : Line} (hf : ∀ c ∈ front, isSpace c = true)
    (hb : ∀ c ∈ back, isSpace c = true) (l : Line) : trim (front ++ l ++ back) = trim l := by
  have hback : back.dropWhile isSpace = [] := List.dropWhile_eq_nil_iff.mpr hb
  unfold trim
  rw [List.append_assoc, List.dropWhile_append_of_pos hf, List.dropWhile_append]
  split
  next hblank => rw [hback, List.isEmpty_iff.mp hblank]
  next => exact trimEnd_append_space _ hb

/-- A line is its trimmed text with whitespace around it. -/
theorem exists_trim_append (l : Line) : ∃ front back : Line,
    (∀ c ∈ front, isSpace c = true) ∧ (∀ c ∈ back, isSpace c = true) ∧ l = front ++ trim l ++ back := by
  obtain ⟨back, hb, hl⟩ := exists_trimEnd_append (l.dropWhile isSpace)
  refine ⟨l.takeWhile isSpace, back, fun c hc => List.mem_takeWhile_imp hc, hb, ?_⟩
  rw [List.append_assoc, trim, ← hl, List.takeWhile_append_dropWhile]

/-- A trimmed line is trimmed. -/
theorem trim_trim (l : Line) : trim (trim l) = trim l := by
  obtain ⟨front, back, hf, hb, hl⟩ := exists_trim_append l
  calc trim (trim l) = trim (front ++ trim l ++ back) := (trim_append_space hf hb _).symm
    _ = trim l := congrArg trim hl.symm

/-- The decoder does not see whitespace around a line. -/
theorem decodeLine_append_space {front back : Line} (hf : ∀ c ∈ front, isSpace c = true)
    (hb : ∀ c ∈ back, isSpace c = true) (l : Line) : decodeLine (front ++ l ++ back) = decodeLine l := by
  unfold decodeLine
  rw [trim_append_space hf hb]

/-- The decoder reads the trimmed text. -/
theorem decodeLine_trim (l : Line) : decodeLine (trim l) = decodeLine l := by
  unfold decodeLine
  rw [trim_trim]

/-! ### The split at the space and at the commas (30_encoding.md R71) -/

/-- There is always a piece. -/
theorem splitCommas_ne_nil (l : Line) : splitCommas l ≠ [] := by
  cases l with
  | nil => simp [splitCommas]
  | cons c cs =>
    unfold splitCommas
    split
    · simp
    · split <;> simp

/-- A comma before joined pieces opens an empty piece. -/
theorem joinCommas_nil_cons {ops : List Line} (h : ops ≠ []) : joinCommas ([] :: ops) = ',' :: joinCommas ops := by
  cases ops with
  | nil => exact absurd rfl h
  | cons x xs => rfl

/-- A character before joined pieces belongs to the first piece. -/
theorem joinCommas_cons_cons (c : Char) (p : Line) (ps : List Line) :
    joinCommas ((c :: p) :: ps) = c :: joinCommas (p :: ps) := by
  cases ps <;> rfl

/-- The pieces of a text join to the text. -/
theorem joinCommas_splitCommas (l : Line) : joinCommas (splitCommas l) = l := by
  induction l with
  | nil => rfl
  | cons c cs ih =>
    unfold splitCommas
    split
    next hc => rw [joinCommas_nil_cons (splitCommas_ne_nil cs), ih, hc]
    next =>
      split
      next hnil => exact absurd hnil (splitCommas_ne_nil cs)
      next p ps hps => rw [joinCommas_cons_cons, ← hps, ih]

/-- Any pieces after a mnemonic follow one space. -/
theorem writtenLine_of_ne_nil (m : Mnemonic) {ops : List Line} (h : ops ≠ []) :
    writtenLine m ops = encodeWith m ops := by
  cases ops with
  | nil => exact absurd rfl h
  | cons x xs => rfl

/-- A line that splits into a mnemonic and pieces is the mnemonic with these pieces. -/
theorem writtenLine_of_splitLine {t : Line} {m : Mnemonic} {ops : List Line}
    (h : splitLine t = .ok (m.spelling, ops)) : writtenLine m ops = t := by
  unfold splitLine at h
  split at h
  next hspace =>
    dsimp only at h
    split at h
    · cases h
    · obtain ⟨hword, hops⟩ := Prod.mk.inj (Except.ok.inj h)
      obtain ⟨rest, hrest⟩ : ∃ rest, t.dropWhile (· != ' ') = ' ' :: rest := by
        cases hd : t.dropWhile (· != ' ') with
        | nil => simpa using List.dropWhile_eq_nil_iff.mp hd ' ' hspace
        | cons c rest =>
          have hc := List.head_dropWhile_not (· != ' ') (l := t) (by simp [hd])
          simp only [hd, List.head_cons, bne_eq_false_iff_eq] at hc
          exact ⟨rest, by rw [hc]⟩
      rw [hrest, List.drop_one, List.tail_cons] at hops
      rw [← hops, writtenLine_of_ne_nil m (splitCommas_ne_nil rest), encodeWith, joinCommas_splitCommas, ← hword,
        ← hrest, List.takeWhile_append_dropWhile]
  next =>
    obtain ⟨rfl, rfl⟩ := Prod.mk.inj (Except.ok.inj h)
    rfl

/-! ### Mnemonics (30_encoding.md R75) -/

/-- The list of mnemonics is complete. -/
theorem mem_mnemonics (m : Mnemonic) : m ∈ mnemonics := by cases m <;> decide

/-- The mnemonic that is read is the one with that spelling. -/
theorem readMnemonic_eq_some {t : Line} {m : Mnemonic} : readMnemonic t = some m ↔ m.spelling = t := by
  constructor
  · intro h
    unfold readMnemonic at h
    exact of_decide_eq_true (List.find?_some h :)
  · rintro rfl
    exact readMnemonic_spelling m

/-- A mnemonic alone is read with no operands. -/
theorem decodeLine_spelling (m : Mnemonic) : decodeLine m.spelling = readOperands m [] := by cases m <;> rfl

/-- Literals are operand texts, and none is empty. -/
theorem operandText_of_literals {ops : List Line} {vals : List Int} (h : List.Forall₂ LiteralOf ops vals) :
    ∀ x ∈ ops, operandText x ∧ x ≠ [] := by
  induction h with
  | nil => simp
  | cons hx _ ih => exact List.forall_mem_cons.mpr ⟨operandText_literal hx, ih⟩

/-- A mnemonic with literals is read as the mnemonic with these literals. -/
theorem decodeLine_writtenLine (m : Mnemonic) {ops : List Line} {vals : List Int}
    (h : List.Forall₂ LiteralOf ops vals) : decodeLine (writtenLine m ops) = readOperands m ops := by
  cases ops with
  | nil => exact decodeLine_spelling m
  | cons x xs =>
    have hlit := operandText_of_literals h
    exact decodeLine_encodeWith m (hlit x (by simp)).2 fun y hy => (hlit y hy).1

/-- What a decoded text is: a mnemonic with pieces that its operand reader accepts. -/
theorem writtenLine_of_decodeTrimmed {t : Line} {i : Instr} (h : decodeTrimmed t = .ok i) :
    ∃ m ops, t = writtenLine m ops ∧ readOperands m ops = .ok i := by
  unfold decodeTrimmed at h
  split at h
  · cases h
  · split at h
    · cases h
    next word ops hsplit =>
      split at h
      · cases h
      next m hm =>
        obtain rfl := readMnemonic_eq_some.mp hm
        exact ⟨m, ops, (writtenLine_of_splitLine hsplit).symm, h⟩

/-! ### One operand (30_encoding.md R72, R73) -/

/-- A literal in a range. -/
theorem literalIn_eq_ok {lo hi v : Int} {l : Line} :
    literalIn lo hi l = .ok v ↔ LiteralOf l v ∧ lo ≤ v ∧ v ≤ hi := by
  rw [← parseInt_eq_some]
  unfold literalIn
  cases parseInt l with
  | none => simp
  | some w =>
    simp only
    split <;> grind

/-- A register operand is a literal of the register's index. -/
theorem registerOperand_eq_ok {l : Line} {r : RegIndex} :
    registerOperand l = .ok r ↔ LiteralOf l (r.val : Int) := by
  unfold registerOperand
  constructor
  · intro h
    split at h
    · cases h
    next v hv =>
      obtain ⟨hlit, h0, h7⟩ := literalIn_eq_ok.mp hv
      have hval : ((Fin.ofNat 8 v.toNat).val : Int) = v := by simp; omega
      rwa [← Except.ok.inj h, hval]
  · intro h
    rw [literalIn_eq_ok.mpr ⟨h, by omega, by omega⟩]
    simp

/-- A signed immediate operand. -/
theorem signedOperand_eq_ok {l : Line} {v : Int} :
    signedOperand l = .ok v ↔ LiteralOf l v ∧ signedImmediateOk v = true := by
  rw [signedOperand, literalIn_eq_ok, signedImmediateOk, decide_eq_true_iff]

/-- An unsigned immediate operand. -/
theorem unsignedOperand_eq_ok {l : Line} {u : Nat} :
    unsignedOperand l = .ok u ↔ LiteralOf l (u : Int) ∧ unsignedImmediateOk u = true := by
  unfold unsignedOperand
  rw [unsignedImmediateOk, decide_eq_true_iff]
  constructor
  · intro h
    split at h
    · cases h
    next v hv =>
      obtain ⟨hlit, h0, hmax⟩ := literalIn_eq_ok.mp hv
      obtain rfl := Except.ok.inj h
      have hval : ((v.toNat : Nat) : Int) = v := by omega
      exact ⟨by rwa [hval], by omega⟩
  · rintro ⟨h, hu⟩
    rw [literalIn_eq_ok.mpr ⟨h, by omega, by omega⟩]
    rfl

/-- A `.fill` operand. -/
theorem fillOperand_eq_ok {l : Line} {v : Int} :
    fillOperand l = .ok v ↔ LiteralOf l v ∧ fillValueOk v = true := by
  rw [fillOperand, literalIn_eq_ok, fillValueOk, decide_eq_true_iff]

/-! ### The shapes of an operand list (30_encoding.md R74) -/

/-- No operands. -/
theorem noOperands_eq_ok {i j : Instr} {ops : List Line} : noOperands i ops = .ok j ↔ j = i ∧ ops = [] := by
  cases ops <;> simp [noOperands, eq_comm]

/-- Three registers. -/
theorem threeRegisters_eq_ok {mk : RegIndex → RegIndex → RegIndex → Instr} {ops : List Line} {i : Instr} :
    threeRegisters mk ops = .ok i ↔
      ∃ a b c, i = mk a b c ∧ List.Forall₂ LiteralOf ops [(a.val : Int), (b.val : Int), (c.val : Int)] := by
  match ops with
  | [x, y, z] =>
    simp only [threeRegisters, List.forall₂_cons, List.forall₂_nil_left_iff, and_true, ← registerOperand_eq_ok]
    cases registerOperand x <;> cases registerOperand y <;> cases registerOperand z <;> simp [eq_comm]
  | [] | [_] | [_, _] | _ :: _ :: _ :: _ :: _ => simp [threeRegisters]

/-- Two registers and a signed immediate. -/
theorem twoRegistersSigned_eq_ok {mk : RegIndex → RegIndex → Int → Instr} {ops : List Line} {i : Instr} :
    twoRegistersSigned mk ops = .ok i ↔
      ∃ a b n, i = mk a b n ∧ List.Forall₂ LiteralOf ops [(a.val : Int), (b.val : Int), n] ∧
        signedImmediateOk n = true := by
  match ops with
  | [x, y, z] =>
    simp only [twoRegistersSigned, List.forall₂_cons, List.forall₂_nil_left_iff, and_true, and_assoc,
      ← registerOperand_eq_ok, ← signedOperand_eq_ok]
    cases registerOperand x <;> cases registerOperand y <;> cases signedOperand z <;> simp [eq_comm]
  | [] | [_] | [_, _] | _ :: _ :: _ :: _ :: _ => simp [twoRegistersSigned]

/-- Two registers. -/
theorem twoRegisters_eq_ok {mk : RegIndex → RegIndex → Instr} {ops : List Line} {i : Instr} :
    twoRegisters mk ops = .ok i ↔
      ∃ a b, i = mk a b ∧ List.Forall₂ LiteralOf ops [(a.val : Int), (b.val : Int)] := by
  match ops with
  | [x, y] =>
    simp only [twoRegisters, List.forall₂_cons, List.forall₂_nil_left_iff, and_true, ← registerOperand_eq_ok]
    cases registerOperand x <;> cases registerOperand y <;> simp [eq_comm]
  | [] | [_] | _ :: _ :: _ :: _ => simp [twoRegisters]

/-- One register and an unsigned immediate. -/
theorem registerUnsigned_eq_ok {mk : RegIndex → Nat → Instr} {ops : List Line} {i : Instr} :
    registerUnsigned mk ops = .ok i ↔
      ∃ a u, i = mk a u ∧ List.Forall₂ LiteralOf ops [(a.val : Int), (u : Int)] ∧ unsignedImmediateOk u = true := by
  match ops with
  | [x, y] =>
    simp only [registerUnsigned, List.forall₂_cons, List.forall₂_nil_left_iff, and_true, and_assoc,
      ← registerOperand_eq_ok, ← unsignedOperand_eq_ok]
    cases registerOperand x <;> cases unsignedOperand y <;> simp [eq_comm]
  | [] | [_] | _ :: _ :: _ :: _ => simp [registerUnsigned]

/-- One register and a signed immediate. -/
theorem registerSigned_eq_ok {mk : RegIndex → Int → Instr} {ops : List Line} {i : Instr} :
    registerSigned mk ops = .ok i ↔
      ∃ a n, i = mk a n ∧ List.Forall₂ LiteralOf ops [(a.val : Int), n] ∧ signedImmediateOk n = true := by
  match ops with
  | [x, y] =>
    simp only [registerSigned, List.forall₂_cons, List.forall₂_nil_left_iff, and_true, and_assoc,
      ← registerOperand_eq_ok, ← signedOperand_eq_ok]
    cases registerOperand x <;> cases signedOperand y <;> simp [eq_comm]
  | [] | [_] | _ :: _ :: _ :: _ => simp [registerSigned]

/-- One fill value. -/
theorem oneFillValue_eq_ok {mk : Int → Instr} {ops : List Line} {i : Instr} :
    oneFillValue mk ops = .ok i ↔
      ∃ v, i = mk v ∧ List.Forall₂ LiteralOf ops [v] ∧ fillValueOk v = true := by
  match ops with
  | [x] =>
    simp only [oneFillValue, List.forall₂_cons, List.forall₂_nil_left_iff, and_true, ← fillOperand_eq_ok]
    cases fillOperand x <;> simp [eq_comm]
  | [] | _ :: _ :: _ => simp [oneFillValue]

/-! ### A JALR by its operand values (30_encoding.md R94) -/

@[simp] theorem jalrOf_mnemonic (a b : RegIndex) : (jalrOf a b).mnemonic = .jalr := by
  unfold jalrOf; split <;> rfl

@[simp] theorem jalrOf_wellFormed (a b : RegIndex) : (jalrOf a b).wellFormed = true := by
  unfold jalrOf
  split
  next => rfl
  next h => simpa [Instr.wellFormed, imp_iff_not_or] using h

@[simp] theorem jalrOf_operandValues (a b : RegIndex) :
    (jalrOf a b).operandValues = [(a.val : Int), (b.val : Int)] := by
  unfold jalrOf
  split
  next h => rw [h.1, h.2]; rfl
  next => rfl

/-- Only the pair 0,0 is the row `jalr 0,0`. -/
theorem jalrOf_of_wellFormed {a b : RegIndex} (h : (Instr.jalr a b).wellFormed = true) :
    jalrOf a b = .jalr a b := by
  rw [jalrOf, if_neg (by simpa [Instr.wellFormed, imp_iff_not_or] using h)]

/-! ### The operands of each mnemonic (30_encoding.md R80 to R91) -/

/-- Literals of a well-formed instruction's operand values are read as the instruction. -/
theorem readOperands_of_literals {i : Instr} {ops : List Line} (h : List.Forall₂ LiteralOf ops i.operandValues)
    (hw : i.wellFormed = true) : readOperands i.mnemonic ops = .ok i := by
  cases i with
  | add a b c | nand a b c => exact threeRegisters_eq_ok.mpr ⟨a, b, c, rfl, h⟩
  | addi a b n | lw a b n | sw a b n | beq a b n => exact twoRegistersSigned_eq_ok.mpr ⟨a, b, n, rfl, h, hw⟩
  | jalr a b => exact twoRegisters_eq_ok.mpr ⟨a, b, (jalrOf_of_wellFormed hw).symm, h⟩
  | jalr00 => exact twoRegisters_eq_ok.mpr ⟨0, 0, rfl, h⟩
  | lui a u => exact registerUnsigned_eq_ok.mpr ⟨a, u, rfl, h, hw⟩
  | nop | halt => exact noOperands_eq_ok.mpr ⟨rfl, List.forall₂_nil_right_iff.mp h⟩
  | lli a n => exact registerSigned_eq_ok.mpr ⟨a, n, rfl, h, hw⟩
  | fill v => exact oneFillValue_eq_ok.mpr ⟨v, rfl, h, hw⟩

/-- What a mnemonic's operand reader answers is a well-formed instruction of that mnemonic, and the pieces are
literals of its operand values. -/
theorem literals_of_readOperands {m : Mnemonic} {ops : List Line} {i : Instr} (h : readOperands m ops = .ok i) :
    i.mnemonic = m ∧ List.Forall₂ LiteralOf ops i.operandValues ∧ i.wellFormed = true := by
  cases m with
  | add | nand =>
    obtain ⟨a, b, c, rfl, hlit⟩ := threeRegisters_eq_ok.mp h
    exact ⟨rfl, hlit, rfl⟩
  | addi | lw | sw | beq =>
    obtain ⟨a, b, n, rfl, hlit, hn⟩ := twoRegistersSigned_eq_ok.mp h
    exact ⟨rfl, hlit, hn⟩
  | jalr =>
    obtain ⟨a, b, rfl, hlit⟩ := twoRegisters_eq_ok.mp h
    exact ⟨jalrOf_mnemonic a b, by rwa [jalrOf_operandValues], jalrOf_wellFormed a b⟩
  | lui =>
    obtain ⟨a, u, rfl, hlit, hu⟩ := registerUnsigned_eq_ok.mp h
    exact ⟨rfl, hlit, hu⟩
  | nop | halt =>
    obtain ⟨rfl, rfl⟩ := noOperands_eq_ok.mp h
    exact ⟨rfl, .nil, rfl⟩
  | lli =>
    obtain ⟨a, n, rfl, hlit, hn⟩ := registerSigned_eq_ok.mp h
    exact ⟨rfl, hlit, hn⟩
  | fill =>
    obtain ⟨v, rfl, hlit, hv⟩ := oneFillValue_eq_ok.mp h
    exact ⟨rfl, hlit, hv⟩

/-! ### The decoder and the grammar -/

/-- A line is read as the instruction whose mnemonic and operand values it writes. -/
theorem decodeLine_of_writes {l : Line} {i : Instr} (h : Writes l i.mnemonic i.operandValues)
    (hw : i.wellFormed = true) : decodeLine l = .ok i := by
  obtain ⟨front, back, ops, hf, hb, rfl, hlit⟩ := h
  rw [decodeLine_append_space (fun c hc => isSpace_iff.mpr (hf c hc)) (fun c hc => isSpace_iff.mpr (hb c hc)),
    decodeLine_writtenLine _ hlit, readOperands_of_literals hlit hw]

/-- The decoder accepts exactly the lines of the grammar (30_encoding.md R70 to R75). -/
theorem decodeLine_eq_ok {l : Line} {i : Instr} :
    decodeLine l = .ok i ↔ Writes l i.mnemonic i.operandValues ∧ i.wellFormed = true := by
  refine ⟨fun h => ?_, fun ⟨h, hw⟩ => decodeLine_of_writes h hw⟩
  obtain ⟨m, ops, htrim, hread⟩ := writtenLine_of_decodeTrimmed h
  obtain ⟨rfl, hlit, hw⟩ := literals_of_readOperands hread
  obtain ⟨front, back, hf, hb, hl⟩ := exists_trim_append l
  exact ⟨⟨front, back, ops, fun c hc => isSpace_iff.mp (hf c hc), fun c hc => isSpace_iff.mp (hb c hc),
    by rw [← htrim, ← hl], hlit⟩, hw⟩

/-- A line is refused when no instruction is read from it. -/
theorem refused_iff {l : Line} : Refused l ↔ ∀ i, decodeLine l ≠ .ok i := by
  unfold Refused
  cases decodeLine l <;> simp

/-- Settles O56: the decoder inverted part by part, one operand shape at a time. -/
theorem decodingAcceptsExactlyTheGrammar : Obligations.DecodingAcceptsExactlyTheGrammar := by
  unfold Obligations.DecodingAcceptsExactlyTheGrammar
  refine ⟨fun l i => decodeLine_eq_ok, fun l => ?_, fun t => ?_⟩
  · simp only [refused_iff, ne_eq, decodeLine_eq_ok]
  · have hlist : t ∈ mnemonics.map Mnemonic.spelling ↔ ∃ m : Mnemonic, m.spelling = t := by
      simp [mem_mnemonics]
    exact hlist.symm

end Sys2Proof
end

section
/-! PROOFS. 30_encoding.md R62, R67, R68, R94, R97: what the record of a line holds. -/

namespace Sys2Proof

/-! ### The record of an instruction -/

/-- The family RecordFields, for every instruction. -/
theorem record_fields (i : Instr) : Laws.RecordFields.Statement i := by
  cases i with
  | add a b c => exact Laws.RecordFields.add a b c
  | nand a b c => exact Laws.RecordFields.nand a b c
  | addi a b n => exact Laws.RecordFields.addi a b n
  | lw a b n => exact Laws.RecordFields.lw a b n
  | sw a b n => exact Laws.RecordFields.sw a b n
  | beq a b n => exact Laws.RecordFields.beq a b n
  | jalr a b => exact Laws.RecordFields.jalr a b
  | jalr00 => exact Laws.RecordFields.jalr00
  | lui a u => exact Laws.RecordFields.lui a u
  | nop => exact Laws.RecordFields.nop
  | halt => exact Laws.RecordFields.halt
  | lli a n => exact Laws.RecordFields.lli a n
  | fill v => exact Laws.RecordFields.fill v

/-- The address goes into its own field and into no other. -/
theorem record_with_address (i : Instr) (haltPair : Bool) (addr addr' : Nat) (text : Line) :
    { i.record haltPair addr text with address := addr' } = i.record haltPair addr' text := by
  cases i with
  | jalr00 => cases haltPair <;> rfl
  | _ => rfl

/-- A JALR's record by its operand values (30_encoding.md R94). -/
theorem jalrOf_record (x y : RegIndex) (haltPair : Bool) (addr : Nat) (text : Line) :
    (jalrOf x y).record haltPair addr text =
      if x = 0 ∧ y = 0 ∧ haltPair = true then recordHalt addr text else recordRRI .jalr x y 0 addr text := by
  unfold jalrOf
  split
  next h =>
    obtain ⟨rfl, rfl⟩ := h
    simp [Instr.record]
  next h => rw [if_neg fun hall => h ⟨hall.1, hall.2.1⟩, Instr.record]

/-! ### The record of a line -/

/-- The record of a line that decodes. -/
theorem decodeRecord_of_decodeLine {l : Line} {i : Instr} (h : decodeLine l = .ok i) (haltPair : Bool) (addr : Nat) :
    decodeRecord haltPair l addr = .ok (i.record haltPair addr (trim l)) := by
  rw [decodeRecord, h]

/-- A record is built from the instruction and the trimmed text of its line. -/
theorem instr_of_decodeRecord {haltPair : Bool} {l : Line} {addr : Nat} {r : Record}
    (h : decodeRecord haltPair l addr = .ok r) :
    ∃ i, decodeLine l = .ok i ∧ r = i.record haltPair addr (trim l) := by
  unfold decodeRecord at h
  split at h
  · cases h
  next i hi => exact ⟨i, hi, (Except.ok.inj h).symm⟩

/-- A line that does not decode has no record. -/
theorem decodeRecord_error {l : Line} (h : ∀ i, decodeLine l ≠ .ok i) (haltPair : Bool) (addr : Nat) :
    ∃ e, decodeRecord haltPair l addr = .error e := by
  obtain ⟨e, he⟩ := refused_iff.mpr h
  exact ⟨e, by rw [decodeRecord, he]⟩

/-- A line's record is clean and carries its address and the trimmed text (30_encoding.md R62, R67, R68). -/
theorem decodeRecord_fields {haltPair : Bool} {l : Line} {addr : Nat} {r : Record}
    (h : decodeRecord haltPair l addr = .ok r) : r.clean = true ∧ r.address = addr ∧ r.text = trim l := by
  obtain ⟨i, hi, rfl⟩ := instr_of_decodeRecord h
  exact record_fields i (decodeLine_eq_ok.mp hi).2 haltPair addr (trim l)

/-- Settles O5: the text is the trimmed line, and trimming it again changes nothing. -/
theorem redecodingTheTextGivesTheRecord : Obligations.RedecodingTheTextGivesTheRecord := by
  unfold Obligations.RedecodingTheTextGivesTheRecord
  intro haltPair l addr addr' r h
  obtain ⟨-, -, htext⟩ := decodeRecord_fields h
  obtain ⟨i, hi, hr⟩ := instr_of_decodeRecord h
  have hdecode : decodeLine r.text = .ok i := by rw [htext, decodeLine_trim, hi]
  calc decodeRecord haltPair r.text addr'
    _ = .ok (i.record haltPair addr' (trim r.text)) := decodeRecord_of_decodeLine hdecode haltPair addr'
    _ = .ok (i.record haltPair addr' (trim l)) := by rw [htext, trim_trim]
    _ = .ok { r with address := addr' } := by rw [hr, record_with_address]

/-- Settles O6: the line is a mnemonic with two literals, and is read as `jalrOf` of their values. -/
theorem jalrPairIsReadByValue : Obligations.JalrPairIsReadByValue := by
  unfold Obligations.JalrPairIsReadByValue
  intro p q x y haltPair addr hp hq l
  have hlit : List.Forall₂ LiteralOf [p, q] [(x.val : Int), (y.val : Int)] :=
    .cons (parseInt_eq_some.mp hp) (.cons (parseInt_eq_some.mp hq) .nil)
  have hl : l = encodeWith .jalr [p, q] := by simp [l, encodeWith, Mnemonic.spelling, joinCommas]
  have hops := operandText_of_literals hlit
  have htrim : trim l = l := by
    rw [hl]
    exact trim_encodeWith .jalr (hops p (by simp)).2 fun z hz => (hops z hz).1
  have hdecode : decodeLine l = .ok (jalrOf x y) := by
    rw [hl]
    exact (decodeLine_writtenLine .jalr hlit).trans (twoRegisters_eq_ok.mpr ⟨x, y, rfl, hlit⟩)
  rw [decodeRecord_of_decodeLine hdecode, htrim, jalrOf_record]
  rfl

end Sys2Proof
end

section
/-! PROOFS. 30_encoding.md R69: what a load answers. -/

namespace Sys2Proof

/-- The source of a load holds each line's record at the line's index, and nothing else. -/
theorem records_of_decodeSource {haltPair : Bool} {addr : Nat} {ls : List Line} {rs : List Record}
    (h : decodeSource haltPair addr ls = .ok rs) :
    rs.length = ls.length ∧
      ∀ (k : Nat) (r : Record), rs[k]? = some r →
        ∃ l, ls[k]? = some l ∧ decodeRecord haltPair l (addr + k) = .ok r := by
  induction ls generalizing addr rs with
  | nil =>
    obtain rfl := Except.ok.inj h
    simp
  | cons l ls ih =>
    unfold decodeSource at h
    split at h
    · cases h
    next r hr =>
      split at h
      · cases h
      next rest hrest =>
        obtain rfl := Except.ok.inj h
        obtain ⟨hlength, hrecords⟩ := ih hrest
        refine ⟨by simp [hlength], fun k r' hk => ?_⟩
        cases k with
        | zero =>
          obtain rfl : r = r' := by simpa using hk
          exact ⟨l, rfl, hr⟩
        | succ k =>
          obtain ⟨l', hl', hr'⟩ := hrecords k r' (by simpa using hk)
          exact ⟨l', by simpa using hl', by rwa [show addr + (k + 1) = addr + 1 + k by omega]⟩

/-- Lines that all decode are a source. -/
theorem decodeSource_of_good {ls : List Line} (h : ∀ l ∈ ls, ∃ i, decodeLine l = .ok i) (haltPair : Bool)
    (addr : Nat) : ∃ rs, decodeSource haltPair addr ls = .ok rs := by
  induction ls generalizing addr with
  | nil => exact ⟨[], rfl⟩
  | cons l ls ih =>
    obtain ⟨⟨i, hi⟩, hrest⟩ := List.forall_mem_cons.mp h
    obtain ⟨rs, hrs⟩ := ih hrest (addr + 1)
    exact ⟨_, by rw [decodeSource, decodeRecord_of_decodeLine hi, hrs]⟩

/-- The first line that does not decode is named, counted from 1. -/
theorem decodeSource_of_bad {good rest : List Line} {bad : Line} (hgood : ∀ l ∈ good, ∃ i, decodeLine l = .ok i)
    (hbad : ∀ i, decodeLine bad ≠ .ok i) (haltPair : Bool) (addr : Nat) :
    decodeSource haltPair addr (good ++ bad :: rest) = .error (.invalidSource (addr + good.length + 1)) := by
  induction good generalizing addr with
  | nil =>
    obtain ⟨e, he⟩ := decodeRecord_error hbad haltPair addr
    rw [List.nil_append, decodeSource, he, List.length_nil, Nat.add_zero]
  | cons l ls ih =>
    obtain ⟨⟨i, hi⟩, hrest⟩ := List.forall_mem_cons.mp hgood
    rw [List.cons_append, decodeSource, decodeRecord_of_decodeLine hi, ih hrest, List.length_cons,
      Nat.add_right_comm addr 1, ← Nat.add_assoc addr]

end Sys2Proof

namespace Sys2Proof.Machine

/-- A source that is too long is refused. -/
theorem load_of_tooLong {lines : List Line} (h : maxProgram < lines.length) (haltPair : Bool) :
    Program.load haltPair lines = .error .programTooLarge := by
  rw [Program.load, loadSource, if_pos h]

/-- A source that is not too long is refused for what its lines are refused for. -/
theorem load_of_decodeSource_error {haltPair : Bool} {lines : List Line} {e : LoadError}
    (hle : lines.length ≤ maxProgram) (h : decodeSource haltPair 0 lines = .error e) :
    Program.load haltPair lines = .error e := by
  rw [Program.load, loadSource, if_neg (by omega), h]

/-- A program is loaded exactly from a source that is not too long and whose lines all have records. -/
theorem load_eq_ok {haltPair : Bool} {lines : List Line} {p : Program} :
    Program.load haltPair lines = .ok p ↔
      lines.length ≤ maxProgram ∧ ∃ rs, decodeSource haltPair 0 lines = .ok rs ∧ p = ⟨rs, [], haltPair⟩ := by
  constructor
  · intro h
    unfold Program.load loadSource at h
    split at h
    · cases h
    next rs hrs =>
      split at hrs
      · cases hrs
      next hle => exact ⟨by omega, rs, hrs, (Except.ok.inj h).symm⟩
  · rintro ⟨hle, rs, hrs, rfl⟩
    rw [Program.load, loadSource, if_neg (by omega), hrs]

/-- Settles O7, by induction on the lines before the first bad one, or on all lines. -/
theorem loadBuildsTheProgramOrNamesTheFirstBadLine : Obligations.LoadBuildsTheProgramOrNamesTheFirstBadLine := by
  unfold Obligations.LoadBuildsTheProgramOrNamesTheFirstBadLine
  refine fun haltPair lines => ⟨fun hlong => load_of_tooLong hlong haltPair, fun hle => ⟨?firstBad, ?allGood⟩⟩
  case firstBad =>
    rintro good bad rest rfl hgood hbad
    have herror := decodeSource_of_bad (rest := rest) hgood hbad haltPair 0
    rw [Nat.zero_add] at herror
    exact load_of_decodeSource_error hle herror
  case allGood =>
    intro hgood
    obtain ⟨rs, hrs⟩ := decodeSource_of_good hgood haltPair 0
    obtain ⟨hlength, hrecords⟩ := records_of_decodeSource hrs
    refine ⟨_, load_eq_ok.mpr ⟨hle, rs, hrs, rfl⟩, hlength, memory_read_nil, fun k l hl => ?_⟩
    obtain ⟨hk, -⟩ := List.getElem?_eq_some_iff.mp hl
    have hr : rs[k]? = some rs[k] := List.getElem?_eq_getElem (hlength ▸ hk)
    obtain ⟨l', hl', hrecord⟩ := hrecords k rs[k] hr
    obtain rfl : l = l' := Option.some.inj (hl.symm.trans hl')
    exact ⟨rs[k], hr, by rwa [Nat.zero_add] at hrecord⟩

/-- Settles O8: the record at an index is that of the line there. -/
theorem loadedRecordsAreStampedAndClean : Obligations.LoadedRecordsAreStampedAndClean := by
  unfold Obligations.LoadedRecordsAreStampedAndClean
  intro haltPair lines p hload k r hr
  obtain ⟨-, rs, hrs, rfl⟩ := load_eq_ok.mp hload
  obtain ⟨-, hrecords⟩ := records_of_decodeSource hrs
  obtain ⟨l, hl, hrecord⟩ := hrecords k r hr
  rw [Nat.zero_add] at hrecord
  obtain ⟨hclean, haddress, htext⟩ := decodeRecord_fields hrecord
  exact ⟨haddress, hclean, l, hl, htext⟩

end Sys2Proof.Machine
end

section
/-! PROOFS. 40_alu.md R101 to R106: ADD, ADDI, NAND, LUI and the pseudo-ops `nop` and `lli`. Each is one register
write of a value that wraps an integer result (R100), and the frame is that of the write. -/

namespace Sys2Proof

/-! ### Wrapping -/

/-- A Word wraps to itself. -/
@[simp] theorem wrap16_toInt (w : Word) : wrap16 w.toInt = w := BitVec.ofInt_toInt

/-- Wrapping a sum is adding the wrapped integers. -/
theorem wrap16_add (m n : Int) : wrap16 (m + n) = wrap16 m + wrap16 n := BitVec.ofInt_add m n

/-- The sum of two Words wraps the sum of the integers they stand for. -/
theorem add_eq_wrap16 (v w : Word) : v + w = wrap16 (v.toInt + w.toInt) := by
  rw [wrap16_add, wrap16_toInt, wrap16_toInt]

/-- Wrapping an operand before an addition is not seen in the wrapped sum. -/
theorem wrap16_wrapped_add (m n : Int) : wrap16 ((wrap16 m).toInt + n) = wrap16 (m + n) := by
  rw [wrap16_add, wrap16_toInt, ← wrap16_add]

end Sys2Proof

namespace Sys2Proof.Machine

/-! ### The values of the family -/

/-- Adding a sign-extended immediate wraps the integer sum with the immediate. -/
theorem add_sext16_eq_wrap16 (w : Word) (i : Int) : w + sext16 i = wrap16 (w.toInt + i) := by
  rw [wrap16_add, wrap16_toInt]; rfl

/-- The LUI operand wraps the immediate times 64. -/
theorem upperImmediate_eq_wrap16 (u : Nat) : upperImmediate u = wrap16 ((u : Int) * 64) :=
  (BitVec.ofInt_natCast 16 (u * 64)).symm

/-- The low six bits of the LUI operand are 0: it is a multiple of 2^6. -/
theorem upperImmediate_low_bits (u : Nat) {k : Nat} (hk : k < 6) : (upperImmediate u).getLsbD k = false := by
  have hlow : (u * 2 ^ 6).testBit k = false := by
    rw [Nat.testBit_mul_two_pow, decide_eq_false (by omega), Bool.false_and]
  exact (BitVec.getLsbD_ofNat 16 (u * 2 ^ 6) k).trans (by rw [hlow, Bool.and_false])

/-- One bit of a NAND. -/
theorem nand_getLsbD (v w : Word) {k : Nat} (hk : k < 16) :
    (~~~(v &&& w)).getLsbD k = !(v.getLsbD k && w.getLsbD k) := by
  simp [hk]

/-! ### Each instruction as one register write -/

theorem exec_add_eq_writeReg (a b c : RegIndex) (s : State) :
    exec (.add a b c) s = .next (s.writeReg a (wrap16 ((s.readReg b).toInt + (s.readReg c).toInt))) := by
  rw [exec_eq_effect, ← add_eq_wrap16]; rfl

theorem exec_addi_eq_writeReg (a b : RegIndex) (i : Int) (s : State) :
    exec (.addi a b i) s = .next (s.writeReg a (wrap16 ((s.readReg b).toInt + i))) := by
  rw [exec_eq_effect, ← add_sext16_eq_wrap16]; rfl

theorem exec_nand_eq_writeReg (a b c : RegIndex) (s : State) :
    exec (.nand a b c) s = .next (s.writeReg a (~~~(s.readReg b &&& s.readReg c))) :=
  exec_eq_effect _ s

theorem exec_lui_eq_writeReg (a : RegIndex) (u : Nat) (s : State) :
    exec (.lui a u) s = .next (s.writeReg a (upperImmediate u)) :=
  exec_eq_effect _ s

/-- `nop` executes as ADD 0,0,0. -/
theorem exec_nop_eq_add (s : State) : exec .nop s = exec (.add 0 0 0) s := by
  rw [exec_eq_effect, exec_eq_effect]; rfl

/-- `lli a,i` executes as ADDI a,a,i. -/
theorem exec_lli_eq_addi (a : RegIndex) (i : Int) (s : State) : exec (.lli a i) s = exec (.addi a a i) s := by
  rw [exec_eq_effect, exec_eq_effect]; rfl

/-- An ADD with destination R0 changes no state (40_alu.md R100). -/
theorem exec_add_zero (b c : RegIndex) (s : State) : exec (.add 0 b c) s = .next s := by
  rw [exec_add_eq_writeReg, writeReg_zero]

/-- `lli` adds to the whole register (40_alu.md R106). -/
theorem exec_lli_eq_writeReg (a : RegIndex) (i : Int) (s : State) :
    exec (.lli a i) s = .next (s.writeReg a (wrap16 ((s.readReg a).toInt + i))) := by
  rw [exec_lli_eq_addi, exec_addi_eq_writeReg]

/-! ### The statements -/

/-- Settles O11: ADD is one register write of the wrapped sum. -/
theorem addWritesTheWrappedSum : Obligations.AddWritesTheWrappedSum := by
  unfold Obligations.AddWritesTheWrappedSum
  refine ⟨rfl, rfl, fun a b c s => ⟨fun _ _ _ => rfl, _, exec_add_eq_writeReg a b c s, ?frame, ?value⟩⟩
  case frame => exact writeReg_onlyRegister s a _
  case value => exact readReg_writeReg_same s _

/-- Settles O12: ADDI is one register write of the wrapped sum. -/
theorem addiWritesTheWrappedSum : Obligations.AddiWritesTheWrappedSum := by
  unfold Obligations.AddiWritesTheWrappedSum
  refine ⟨rfl, rfl, fun a b i s => ⟨fun _ _ _ => rfl, _, exec_addi_eq_writeReg a b i s, ?frame, ?value⟩⟩
  case frame => exact writeReg_onlyRegister s a _
  case value => exact readReg_writeReg_same s _

/-- Settles O13: NAND is one register write, and its value is read off bit by bit. -/
theorem nandWritesTheNegatedConjunction : Obligations.NandWritesTheNegatedConjunction := by
  unfold Obligations.NandWritesTheNegatedConjunction
  refine ⟨rfl, rfl, fun a b c s => ⟨fun _ _ _ => rfl, _, exec_nand_eq_writeReg a b c s, ?frame, fun ha k hk => ?bit⟩⟩
  case frame => exact writeReg_onlyRegister s a _
  case bit => rw [readReg_writeReg_same s _ ha, nand_getLsbD _ _ hk]

/-- Settles O14: LUI is one register write of its operand, whatever the register held. -/
theorem luiWritesTheShiftedImmediate : Obligations.LuiWritesTheShiftedImmediate := by
  unfold Obligations.LuiWritesTheShiftedImmediate
  refine ⟨rfl, rfl, fun a u s => ⟨fun _ _ _ => rfl, _, exec_lui_eq_writeReg a u s, ?frame, fun ha => ?value⟩⟩
  case frame => exact writeReg_onlyRegister s a _
  case value =>
    rw [readReg_writeReg_same s _ ha]
    exact ⟨upperImmediate_eq_wrap16 u, fun _ => upperImmediate_low_bits u⟩

/-- Settles O15: `nop` and the bubble execute as an ADD with destination R0. -/
theorem nopChangesNothing : Obligations.NopChangesNothing := by
  unfold Obligations.NopChangesNothing
  refine ⟨rfl, rfl, fun _ _ _ => ⟨rfl, rfl⟩, ⟨bubble.text, fun _ => rfl⟩, fun s => ⟨?nop, ?bubble⟩⟩
  case nop => rw [exec_nop_eq_add, exec_add_zero]
  case bubble => exact exec_add_zero bubble.regB bubble.regC s

/-- Settles O16: `lli` is one register write of the wrapped sum; after a `lui` the register it adds to is the wrapped
operand, and the two wraps are one. -/
theorem lliAddsToTheWholeRegister : Obligations.LliAddsToTheWholeRegister := by
  unfold Obligations.LliAddsToTheWholeRegister
  refine fun a i s => ⟨fun _ _ _ => rfl, ⟨_, exec_lli_eq_writeReg a i s, ?frame, ?value⟩, fun u t ha hlui => ?pair⟩
  case frame => exact writeReg_onlyRegister s a _
  case value => exact readReg_writeReg_same s _
  case pair =>
    have hupper : t.readReg a = wrap16 ((u : Int) * 64) := by
      rw [exec_lui_eq_writeReg] at hlui
      cases hlui
      rw [readReg_writeReg_same s _ ha, upperImmediate_eq_wrap16]
    refine ⟨_, exec_lli_eq_writeReg a i t, ?_⟩
    rw [readReg_writeReg_same t _ ha, hupper, wrap16_wrapped_add]

end Sys2Proof.Machine
end

section
/-! PROOFS. 41_loadstore.md R110 to R112: LW at WB and SW at ME, each one access at the effective address; and
44_pipeline.md R153, R154: an effect that ends the tick in WB leaves exactly its own state. -/

namespace Sys2Proof.Machine

/-! ### One access each -/

theorem exec_lw_eq_load (a b : RegIndex) (i : Int) (s : State) :
    exec (.lw a b i) s = .next (s.load a (wrap16 ((s.readReg b).toInt + i))) := by
  rw [exec_eq_effect, ← add_sext16_eq_wrap16]; rfl

theorem exec_sw_eq_store (a b : RegIndex) (i : Int) (s : State) :
    exec (.sw a b i) s = .next (s.store (wrap16 ((s.readReg b).toInt + i)) (s.readReg a)) := by
  rw [exec_eq_effect, ← add_sext16_eq_wrap16]; rfl

/-! ### What a load and a store do in each part of the address space -/

/-- 20_memory.md R40: a load out of range takes the fault. -/
theorem load_of_outOfRange {s : State} {addr : Word} (a : RegIndex) (h : s.outOfRange addr = true) :
    s.load a addr = s.takeFault .addressOutOfRange := by
  rw [State.load, memRead_of_outOfRange h]

/-- A load in range is one register write of the word at the address. -/
theorem load_of_inRange {s : State} {addr : Word} (a : RegIndex) (h : s.outOfRange addr = false) :
    s.load a addr = s.writeReg a (s.wordAt addr.toNat) := by
  rw [State.load, memRead_of_inRange h]

/-- 20_memory.md R40: a store out of range takes the fault. -/
theorem store_of_outOfRange {s : State} {addr : Word} (v : Word) (h : s.outOfRange addr = true) :
    s.store addr v = s.takeFault .addressOutOfRange := by
  rw [State.store, memWrite_of_outOfRange v h]

/-- 20_memory.md R42: a store below N is ignored. -/
theorem store_of_program {s : State} {addr : Word} (v : Word) (h : s.outOfRange addr = false)
    (hk : addr.toNat < s.programSize) : s.store addr v = s := by
  rw [State.store, memWrite_of_program v h hk]

/-- 20_memory.md R42: a store in range from N on writes one data word. -/
theorem store_of_data {s : State} {addr : Word} (v : Word) (h : s.outOfRange addr = false)
    (hk : s.programSize ≤ addr.toNat) :
    s.store addr v = { s with data := Memory.write s.data (addr.toNat - s.programSize) v } := by
  rw [State.store, memWrite_of_data v h hk]

/-- What a data write does, once: only that word can change. -/
theorem dataWrite_onlyDataWord (s : State) (k : Nat) (v : Word) :
    OnlyDataWord k s { s with data := Memory.write s.data k v } :=
  ⟨rfl, fun _ hj => memory_read_write_ne s.data v hj⟩

/-! ### An effect that ends the tick in WB (44_pipeline.md R153, R154) -/

/-- Nothing follows an effect that ended the tick. -/
theorem afterEffect_of_ended {s : State} (st : Stage) (r : Record) (fired : Bool) (h : s.status ≠ .running) :
    s.afterEffect st r fired = s :=
  if_neg h

/-- WB is the first stage of the walk, so the state after its effect is the state after the tick. -/
theorem step_of_wb_effect_ended {s : State} {r : Record} (hrun : s.status = .running)
    (hready : ReadyUnfired s.slots.wb r) (hbound : effectStage r.opcode = .wb)
    (hended : (effect r.instr s).status ≠ .running) : step s = .next (effect r.instr s) := by
  obtain ⟨ce, cn, hslot, hcount⟩ := hready
  have hturn : turn .wb s = effect r.instr s := by
    rw [turn_fires (st := .wb) hslot hcount hbound, afterEffect_of_ended .wb r false hended]
  have hwalk : walked stageOrder s = effect r.instr s :=
    (walked_cons_ended (by rwa [hturn])).trans hturn
  rw [step_eq, ticked, if_pos hrun, hwalk, if_neg hended]

/-- The core instruction of a record is an LW only if its opcode is. -/
theorem opcode_of_instr_lw {r : Record} {a b : RegIndex} {i : Int} (h : r.instr = .lw a b i) : r.opcode = .lw := by
  unfold Record.instr at h
  cases hop : r.opcode with
  | lw => rfl
  | _ => simp [hop] at h

/-! ### The statements -/

/-- Settles O20: LW is one load at the effective address; a fault in WB is the state after the tick. -/
theorem loadWritesTheWordRead : Obligations.LoadWritesTheWordRead := by
  unfold Obligations.LoadWritesTheWordRead
  refine ⟨rfl, rfl, fun a b i s => ⟨fun _ _ _ => rfl, ?_⟩⟩
  intro ea
  have hfault (hout : ea.toInt < 0 ∨ (s.programSize : Int) + 1000 ≤ ea.toInt) :
      exec (.lw a b i) s = .next (s.takeFault .addressOutOfRange) := by
    rw [exec_lw_eq_load, load_of_outOfRange a ((outOfRange_iff s ea).2 hout)]
  refine ⟨hfault, fun hnonneg hbound => ?inRange, fun r hrun hready hinstr hout => ?faultingTick⟩
  case inRange =>
    have hin : s.outOfRange ea = false := (inRange_iff s ea).2 ⟨hnonneg, hbound⟩
    refine ⟨s.writeReg a (s.wordAt ea.toNat), s.wordAt ea.toNat, ?_, memRead_of_inRange hin, ?_, ?_⟩
    · rw [exec_lw_eq_load, load_of_inRange a hin]
    · exact writeReg_onlyRegister s a _
    · exact readReg_writeReg_same s _
  case faultingTick =>
    have heffect : effect r.instr s = s.takeFault .addressOutOfRange := by
      rw [hinstr]
      exact Host.Outcome.next.inj ((exec_eq_effect _ s).symm.trans (hfault hout))
    have hbound : effectStage r.opcode = .wb := by rw [opcode_of_instr_lw hinstr]; rfl
    have hended : (effect r.instr s).status ≠ .running := by simp [heffect]
    rw [step_of_wb_effect_ended hrun hready hbound hended, heffect]
    rfl

/-- Settles O21: SW is one store at the effective address. In range the signed and the unsigned value of the address
agree, so the part of the address space it falls in is the one the store acts on. -/
theorem storeWritesOneDataWord : Obligations.StoreWritesOneDataWord := by
  unfold Obligations.StoreWritesOneDataWord
  refine ⟨rfl, rfl, fun a b i s => ⟨fun _ _ _ => rfl, ?_⟩⟩
  intro ea
  refine ⟨fun hout => ?fault, fun hnonneg hbound => ?inRange⟩
  case fault =>
    rw [exec_sw_eq_store, store_of_outOfRange _ ((outOfRange_iff s ea).2 hout)]
    rfl
  case inRange =>
    have hin : s.outOfRange ea = false := (inRange_iff s ea).2 ⟨hnonneg, hbound⟩
    obtain ⟨-, -, hcast⟩ := inRange_bounds hin
    refine ⟨s.store ea (s.readReg a), exec_sw_eq_store a b i s, fun hbelow => ?program, fun hfrom => ?data⟩
    case program => exact store_of_program _ hin (by omega)
    case data =>
      have hindex : (ea.toInt - (s.programSize : Int)).toNat = ea.toNat - s.programSize := by omega
      rw [store_of_data _ hin (by omega), hindex]
      exact ⟨dataWrite_onlyDataWord s _ _, memory_read_write_same s.data _ _⟩

end Sys2Proof.Machine
end

section
/-! PROOFS. 42_control.md R120, R121: BEQ and JALR at RR. Both commit a transfer, which changes the pc and the slot IF
alone; a JALR's transfer starts from the state its link write left. -/

namespace Sys2Proof.Machine

/-! ### The address of the record in RR, and what is computed from it -/

/-- BEQ and JALR use the address of the record in RR (10_state.md R23). -/
theorem controlAddress_of_rr {s : State} {r : Record} {ce cn : Nat} {f : Bool} (h : s.slots.rr = .occ r ce cn f) :
    s.controlAddress = r.address := by
  simp only [State.controlAddress, h]

/-- The link wraps the next address. -/
theorem linkValue_eq_wrap16 (addr : Nat) : linkValue addr = wrap16 ((addr : Int) + 1) :=
  (BitVec.ofInt_natCast 16 (addr + 1)).symm

/-- The branch target wraps the next address plus the immediate. -/
theorem branchTarget_eq_wrap16 (addr : Nat) (i : Int) : branchTarget addr i = wrap16 ((addr : Int) + 1 + i) := by
  rw [wrap16_add, ← linkValue_eq_wrap16]; rfl

/-! ### A committed transfer -/

@[simp] theorem jumpTo_readReg (s : State) (w : Word) (q : RegIndex) : (s.jumpTo w).readReg q = s.readReg q :=
  readReg_congr (jumpTo_regs s w) q

/-- The slot IF after a transfer: the pc write leaves it to the squash. -/
theorem jumpTo_squashedFetch (s : State) (w : Word) : SquashedFetch s (s.jumpTo w) :=
  squash_squashedFetch { s with pc := w }

/-- A transfer changes the pc and the slot IF alone. -/
theorem jumpTo_frame (s : State) (w : Word) :
    s.jumpTo w = { s with pc := (s.jumpTo w).pc
                          slots := { s.slots with ifetch := (s.jumpTo w).slots.ifetch } } := by
  rw [State.jumpTo, squash_eq]; rfl

/-! ### A link and a transfer -/

/-- What a register reads after a register write. -/
theorem readReg_writeReg (s : State) (a b : RegIndex) (v : Word) :
    (s.writeReg a v).readReg b = if a = b ∧ a ≠ 0 then v else s.readReg b := by
  split
  next h =>
    obtain ⟨rfl, ha⟩ := h
    exact readReg_writeReg_same s v ha
  next h =>
    by_cases ha : a = 0
    · rw [ha, writeReg_zero]
    · exact readReg_writeReg_ne s v fun hba => h ⟨hba.symm, ha⟩

/-- The squash sees the slot IF and the table, which a register write leaves. -/
theorem squashedFetch_of_writeReg {s t : State} {a : RegIndex} {v : Word} (h : SquashedFetch (s.writeReg a v) t) :
    SquashedFetch s t := by
  simpa [SquashedFetch] using h

/-- A transfer after a register write changes the registers, the pc and the slot IF alone. -/
theorem writeReg_jumpTo_frame (s : State) (a : RegIndex) (v w : Word) :
    (s.writeReg a v).jumpTo w =
      { s with regs := ((s.writeReg a v).jumpTo w).regs
               pc := ((s.writeReg a v).jumpTo w).pc
               slots := { s.slots with ifetch := ((s.writeReg a v).jumpTo w).slots.ifetch } } := by
  obtain ⟨hwrite, -, -⟩ := writeReg_onlyRegister s a v
  rw [jumpTo_regs]
  generalize s.writeReg a v = u at hwrite ⊢
  rw [hwrite]
  exact jumpTo_frame { s with regs := u.regs } w

/-! ### Each instruction as one transfer -/

theorem exec_beq_of_ne {s : State} {a b : RegIndex} (i : Int) (h : s.readReg a ≠ s.readReg b) :
    exec (.beq a b i) s = .next s := by
  have hne : s.registersEqual a b = false := beq_eq_false_iff_ne.mpr h
  simp [exec_eq_effect, effect, hne]

theorem exec_beq_eq_jumpTo {s : State} {a b : RegIndex} {r : Record} {ce cn : Nat} {f : Bool} (i : Int)
    (hrr : s.slots.rr = .occ r ce cn f) (h : s.readReg a = s.readReg b) :
    exec (.beq a b i) s = .next (s.jumpTo (wrap16 ((r.address : Int) + 1 + i))) := by
  have heq : s.registersEqual a b = true := beq_iff_eq.mpr h
  simp [exec_eq_effect, effect, heq, controlAddress_of_rr hrr, branchTarget_eq_wrap16]

theorem exec_jalr_eq_jumpTo {s : State} {r : Record} {ce cn : Nat} {f : Bool} (a b : RegIndex)
    (hrr : s.slots.rr = .occ r ce cn f) :
    exec (.jalr a b) s =
      .next ((s.writeReg a (wrap16 ((r.address : Int) + 1))).jumpTo
        ((s.writeReg a (wrap16 ((r.address : Int) + 1))).readReg b)) := by
  rw [exec_eq_effect, effect, jumpAndLink_eq, controlAddress_of_rr hrr, linkValue_eq_wrap16]

/-! ### The statements -/

/-- Settles O23: a taken BEQ is one transfer to its target. -/
theorem beqJumpsWhenRegistersAreEqual : Obligations.BeqJumpsWhenRegistersAreEqual := by
  unfold Obligations.BeqJumpsWhenRegistersAreEqual
  refine ⟨rfl, rfl, fun a b i s r ce cn f => ⟨fun _ _ _ => rfl, exec_beq_of_ne i, fun hrr heq => ?taken⟩⟩
  case taken =>
    exact ⟨_, exec_beq_eq_jumpTo i hrr heq, jumpTo_pc s _, jumpTo_squashedFetch s _, jumpTo_frame s _⟩

/-- Settles O24: JALR is one transfer from the state the link write left, to the register as it reads there. -/
theorem jalrLinksThenJumps : Obligations.JalrLinksThenJumps := by
  unfold Obligations.JalrLinksThenJumps
  refine ⟨rfl, rfl, fun a b s r ce cn f => ⟨fun _ _ _ => rfl, fun hrr => ?_⟩⟩
  refine ⟨_, exec_jalr_eq_jumpTo a b hrr, fun ha => ?link, fun q hq => ?others, fun ha => ?noLink, ?target, ?fetch,
    ?frame⟩
  case link => rw [jumpTo_readReg, readReg_writeReg_same s _ ha]
  case others => rw [jumpTo_readReg, readReg_writeReg_ne s _ hq]
  case noLink => rw [jumpTo_regs, ha, writeReg_zero]
  case target => rw [jumpTo_pc, readReg_writeReg]
  case fetch => exact squashedFetch_of_writeReg (jumpTo_squashedFetch _ _)
  case frame => exact writeReg_jumpTo_frame s a _ _

end Sys2Proof.Machine
end

section
/-! PROOFS. 43_halt_fill.md R130, R131: HALT at WB, whose effect is the state after its tick (44_pipeline.md R153), and
the row `jalr 0,0`, which is HALT or a transfer to address 0 that writes no register. -/

namespace Sys2Proof.Machine

/-! ### HALT -/

/-- HALT retiring, field by field (44_pipeline.md R153). -/
theorem halt_eq (s : State) :
    s.halt = { s with slots := { s.slots with wb := .empty }, status := .halted, cycle := s.cycle + 1 } := rfl

theorem exec_halt_eq_halt (s : State) : exec .halt s = .next s.halt := exec_eq_effect .halt s

/-- The core instruction of a HALT record. -/
theorem instr_of_opcode_halt {r : Record} (h : r.opcode = .halt) : r.instr = .halt := by
  simp [Record.instr, h]

/-- A ready HALT in WB ends the tick there, so its effect is the whole tick. -/
theorem step_of_halt_ready {s : State} {r : Record} (hrun : s.status = .running) (hready : ReadyUnfired s.slots.wb r)
    (hop : r.opcode = .halt) : step s = .next s.halt := by
  have heffect : effect r.instr s = s.halt := by rw [instr_of_opcode_halt hop]; rfl
  have hbound : effectStage r.opcode = .wb := by rw [hop]; rfl
  have hended : (effect r.instr s).status ≠ .running := by simp [heffect]
  rw [step_of_wb_effect_ended hrun hready hbound hended, heffect]

/-! ### The row `jalr 0,0` -/

/-- 43_halt_fill.md R131: under the alias the pair halts. -/
theorem exec_jalr00_eq_halt {s : State} (h : s.config.jalr00IsHalt = true) : exec .jalr00 s = .next s.halt := by
  simp [exec_eq_effect, effect, h]

/-- 43_halt_fill.md R131: without the alias the link into R0 is lost and R0 gives the target. -/
theorem exec_jalr00_eq_jumpTo {s : State} (h : s.config.jalr00IsHalt = false) :
    exec .jalr00 s = .next (s.jumpTo 0) := by
  have hjump : s.jumpAndLink 0 0 = s.jumpTo 0 := by rw [jumpAndLink_eq, writeReg_zero, readReg_zero]
  simp [exec_eq_effect, effect, h, hjump]

/-- The row's own spelling decodes to the pair, whatever the parameter (30_encoding.md R94). -/
theorem decodeLine_jalr_zero_zero : decodeLine ['j', 'a', 'l', 'r', ' ', '0', ',', '0'] = .ok .jalr00 := by decide

/-! ### The statements -/

/-- Settles O26: HALT's effect ends the tick in WB, the first stage of the walk. -/
theorem haltEndsTheTickHalted : Obligations.HaltEndsTheTickHalted := by
  unfold Obligations.HaltEndsTheTickHalted
  refine ⟨rfl, rfl, fun _ _ _ => rfl, fun s => ?effect, fun s r hrun hready hop => ?tick⟩
  case effect => rw [exec_halt_eq_halt, halt_eq]
  case tick => rw [step_of_halt_ready hrun hready hop, halt_eq]

/-- Settles O25: under the alias the row's effect is HALT's; without it the effect is one transfer to address 0. -/
theorem jalrZeroZeroHaltsOrJumpsToZero : Obligations.JalrZeroZeroHaltsOrJumpsToZero := by
  unfold Obligations.JalrZeroZeroHaltsOrJumpsToZero
  refine ⟨fun haltPair addr => decodeRecord_of_decodeLine decodeLine_jalr_zero_zero haltPair addr,
    fun _ _ => rfl, fun _ _ => rfl, fun s => ⟨fun halias => ?halts, fun hnoAlias => ?jumps⟩⟩
  case halts => rw [exec_jalr00_eq_halt halias, exec_halt_eq_halt]
  case jumps =>
    refine ⟨_, exec_jalr00_eq_jumpTo hnoAlias, jumpTo_pc s 0, jumpTo_squashedFetch s 0, ?_⟩
    simpa only [jumpTo_pc] using jumpTo_frame s 0

end Sys2Proof.Machine
end

section
/-! PROOFS. 44_pipeline.md R157, R158, R160, R162: how a tick ends. A performed tick runs through its walk to refill,
counters and the drain test, or an effect halts or faults on the way; drained is what only the drain test answers. -/

namespace Sys2Proof.Machine

/-! ### The refill (44_pipeline.md R157) -/

/-- 20_memory.md R43: below N the fetch answers the record there. -/
theorem fetch_of_inside {s : State} {p : Word} (h : p.toNat < s.programSize) :
    ∃ r, s.source[p.toNat]? = some r ∧ s.fetch p = some r :=
  ⟨s.source[p.toNat], List.getElem?_eq_getElem h, List.getElem?_eq_getElem h⟩

/-- 20_memory.md R43: from N on there is nothing to fetch. -/
theorem fetch_of_outside {s : State} {p : Word} (h : s.programSize ≤ p.toNat) : s.fetch p = none :=
  List.getElem?_eq_none h

/-- A refill leaves an occupied IF. -/
theorem refill_of_occupied {s : State} {r : Record} {ce cn : Nat} {f : Bool} (h : s.slots.ifetch = .occ r ce cn f) :
    s.refill = s := by
  simp only [State.refill, h]

/-- A refill at a pc outside the program fetches nothing. -/
theorem refill_of_outside {s : State} (hempty : s.slots.ifetch = .empty) (h : s.programSize ≤ s.pc.toNat) :
    s.refill = s := by
  simp only [State.refill, hempty, fetch_of_outside h]

/-- A refill of an empty IF takes the record at the pc and moves the pc on by one. -/
theorem refill_of_fetched {s : State} {r : Record} (hempty : s.slots.ifetch = .empty) (h : s.fetch s.pc = some r) :
    s.refill = { s with
      pc := wrap16 (s.pc.toInt + 1)
      slots := { s.slots with ifetch := .occ r 0 (s.config.latency.entry r.opcode .ifetch) false } } := by
  have hnext : s.pc + 1 = wrap16 (s.pc.toInt + 1) := by rw [wrap16_add, wrap16_toInt]; rfl
  simp only [State.refill, hempty, h, hnext]
  rfl

/-- IF is Empty after a refill only if the pc lies outside the program. -/
theorem pc_outside_of_refill_empty {s : State} (h : s.refill.slots.ifetch = .empty) :
    s.programSize ≤ s.refill.pc.toNat := by
  cases hif : s.slots.ifetch with
  | occ r ce cn f =>
    rw [refill_of_occupied hif, hif] at h
    cases h
  | empty =>
    by_cases hpc : s.programSize ≤ s.pc.toNat
    · rwa [refill_of_outside hif hpc]
    · obtain ⟨r, -, hfetch⟩ := fetch_of_inside (Nat.lt_of_not_le hpc)
      rw [refill_of_fetched hif hfetch] at h
      cases h

/-! ### The counters and the drain test (44_pipeline.md R158, R160) -/

/-- Counting neither fills nor clears a slot. -/
theorem countUp_eq_empty {x : Slot} : x.countUp = .empty ↔ x = .empty := by
  cases x <;> simp [Slot.countUp]

/-- The end of a tick counts each slot up as the refill left it. -/
theorem endTick_slot (s : State) (st : Stage) : s.endTick.slot st = (s.refill.slot st).countUp := by
  rw [State.slot, endTick_slots, Slots.get_countUp]; rfl

/-- The end of a tick drains the machine, and then every slot is Empty, or leaves it running with a slot taken. -/
theorem endTick_status_cases {u : State} (hrun : u.status = .running) :
    (u.endTick.status = .drained ∧ u.endTick.slots = Slots.allEmpty) ∨
    (u.endTick.status = .running ∧ u.endTick.slots ≠ Slots.allEmpty) := by
  rw [endTick_status, endTick_slots, hrun]
  split
  next hall => exact .inl ⟨rfl, hall⟩
  next hsome => exact .inr ⟨rfl, hsome⟩

/-- A machine with nothing left in its slots has refilled at a pc outside the program. -/
theorem pc_outside_of_endTick_allEmpty {u : State} (h : u.endTick.slots = Slots.allEmpty) :
    u.endTick.programSize ≤ u.endTick.pc.toNat := by
  have hif : (u.refill.slot .ifetch).countUp = .empty := by
    rw [← endTick_slot, State.slot, h, Slots.get_allEmpty]
  rw [State.programSize, endTick_source, endTick_pc]
  exact pc_outside_of_refill_empty (countUp_eq_empty.mp hif)

/-! ### No turn drains the machine -/

/-- No effect drains the machine. -/
theorem effect_status_ne_drained (i : Instr) {s : State} (h : s.status ≠ .drained) :
    (effect i s).status ≠ .drained := by
  have hjump (a b : RegIndex) : (s.jumpAndLink a b).status ≠ .drained := by simpa [jumpAndLink_eq] using h
  cases i with
  | lw a b n =>
    rcases load_cases s a (s.effectiveAddress b n) with ⟨-, e⟩ | ⟨-, e⟩ <;> simp [effect, e, h]
  | sw a b n =>
    rcases store_cases s (s.effectiveAddress b n) (s.readReg a) with ⟨-, e⟩ | ⟨-, -, e⟩ | ⟨-, -, e⟩ <;>
      simp [effect, e, h]
  | beq a b n => simp only [effect]; split <;> simpa using h
  | jalr a b => exact hjump a b
  | jalr00 =>
    simp only [effect]
    split
    · simp
    · exact hjump 0 0
  | halt | fill v => simp [effect]
  | add a b c | nop => simpa [effect, State.addRegisters] using h
  | addi a b n | lli a n => simpa [effect, State.addImmediate] using h
  | nand a b c | lui a u => simpa [effect] using h

/-- The flag and the move leave the status. -/
@[simp] theorem afterEffect_status (s : State) (st : Stage) (r : Record) (fired : Bool) :
    (s.afterEffect st r fired).status = s.status := by
  unfold State.afterEffect
  split
  · split <;> simp
  · rfl

/-- A turn leaves the status, or it is the status of the one effect it applied. -/
theorem turn_status_cases (st : Stage) (s : State) :
    (turn st s).status = s.status ∨ ∃ i, (turn st s).status = (effect i s).status := by
  unfold turn
  cases s.slot st with
  | empty => exact .inl rfl
  | occ r ce cn fired =>
    simp only [readyTurn]
    split
    · split
      · exact .inr ⟨r.instr, afterEffect_status _ st r fired⟩
      · exact .inl (afterEffect_status s st r fired)
    · exact .inl rfl

/-- No turn drains the machine. -/
theorem turn_status_ne_drained (st : Stage) {s : State} (h : s.status ≠ .drained) :
    (turn st s).status ≠ .drained := by
  rcases turn_status_cases st s with e | ⟨i, e⟩
  · rwa [e]
  · rw [e]; exact effect_status_ne_drained i h

/-- No walk drains the machine. -/
theorem walked_status_ne_drained (l : List Stage) {s : State} (hrun : s.status = .running) :
    (walked l s).status ≠ .drained :=
  walked_induction (P := fun t => t.status ≠ .drained) (fun st _ _ h => turn_status_ne_drained st h) l s hrun
    (by rw [hrun]; decide)

/-! ### The whole tick -/

/-- A walk that does not end the tick is followed by the end of the tick. -/
theorem step_of_walk_running {s u : State} (hrun : s.status = .running) (hwalk : walk stageOrder s = .next u)
    (hstill : u.status = .running) : step s = .next u.endTick := by
  have hwalked : walked stageOrder s = u := Host.Outcome.next.inj ((walk_eq stageOrder s).symm.trans hwalk)
  rw [step_eq, ticked, if_pos hrun, hwalked, if_pos hstill]

/-- A performed tick runs to its end, or an effect halts it or faults. -/
theorem step_running_cases {s t : State} (hrun : s.status = .running) (hstep : step s = .next t) :
    (∃ u : State, u.status = .running ∧ t = u.endTick) ∨ t.status = .halted ∨ ∃ k, t.status = .fault k := by
  by_cases hstill : (walked stageOrder s).status = .running
  · rw [step_of_walk_running hrun (walk_eq stageOrder s) hstill] at hstep
    exact .inl ⟨_, hstill, (Host.Outcome.next.inj hstep).symm⟩
  · rw [step_eq, ticked, if_pos hrun, if_neg hstill] at hstep
    cases hstep
    cases hstatus : (walked stageOrder s).status with
    | running => exact absurd hstatus hstill
    | drained => exact absurd hstatus (walked_status_ne_drained stageOrder hrun)
    | halted => exact .inr (.inl rfl)
    | fault k => exact .inr (.inr ⟨k, rfl⟩)

/-! ### The statements -/

/-- Settles O33: the cycle is counted once per performed tick, and each slot as the refill left it. -/
theorem countersSaturateAtTheEndOfTheTick : Obligations.CountersSaturateAtTheEndOfTheTick := by
  unfold Obligations.CountersSaturateAtTheEndOfTheTick
  refine ⟨fun s t hrun hstep => ?cycle, fun _ _ => step_of_walk_running, fun s st => ⟨?occupied, ?empty, ?ended⟩⟩
  case cycle =>
    rw [step_eq] at hstep
    cases hstep
    exact ticked_cycle_of_running hrun
  case occupied =>
    intro r ce cn f hocc
    rw [endTick_slot, hocc]; rfl
  case empty =>
    intro hempty
    rw [endTick_slot, hempty]; rfl
  case ended => exact ⟨endTick_cycle s, fun k => ⟨takeFault_cycle s k, halt_cycle s⟩⟩

/-- Settles O39: a tick that runs to its end is drained exactly with every slot Empty, and an effect that ends one
before halts it or faults. -/
theorem drainedExactlyWhenEmpty : Obligations.DrainedExactlyWhenEmpty := by
  unfold Obligations.DrainedExactlyWhenEmpty
  intro s t hrun hstep
  rcases step_running_cases hrun hstep with ⟨u, hu, rfl⟩ | hhalted | ⟨k, hfault⟩
  · rcases endTick_status_cases hu with ⟨hdrained, hall⟩ | ⟨hstill, hsome⟩
    · exact ⟨by simp [hdrained, hall, -endTick_slots], fun _ => pc_outside_of_endTick_allEmpty hall⟩
    · simp [hstill, hsome, -endTick_slots]
  · simp [hhalted]
  · simp [hfault]

/-- Settles O29: the tick of a terminal status is the state itself. -/
theorem terminalStatusAbsorbs : Obligations.TerminalStatusAbsorbs := by
  unfold Obligations.TerminalStatusAbsorbs
  intro s hended
  rw [step_eq, ticked_of_not_running hended]

/-- Settles O32: the end of the tick refills the state the walk has left, and the refill is one of its three cases. -/
theorem refillFetchesAtThePc : Obligations.RefillFetchesAtThePc := by
  unfold Obligations.RefillFetchesAtThePc
  refine ⟨fun s u hrun hwalk hstill => ?tick, fun s => ⟨fun p => ?fetch, ?occupied, ?outside, ?inside⟩⟩
  case tick => exact ⟨_, step_of_walk_running hrun hwalk hstill, endTick_pc u, endTick_slots u⟩
  case fetch =>
    split
    next => rfl
    next houtside => exact fetch_of_outside (Nat.le_of_not_lt houtside)
  case occupied => exact fun _ _ _ _ => refill_of_occupied
  case outside => exact refill_of_outside
  case inside =>
    intro hempty hinside
    obtain ⟨r, hsource, hfetch⟩ := fetch_of_inside hinside
    exact ⟨r, hsource, refill_of_fetched hempty hfetch⟩

end Sys2Proof.Machine
end

section
/-! PROOFS. 44_pipeline.md R150, R151, R154: one stage's turn. An effect is applied in the one stage it is bound to, on
the state the walk brings there; any other turn moves slots alone; and a fault, in WB or in ME, is the state after the
tick. -/

namespace Sys2Proof.Machine

/-! ### An effect that ends the tick in ME -/

/-- The turn that `processStage` answers. -/
theorem turn_of_processStage {st : Stage} {s u : State} (h : processStage st s = .next u) : turn st s = u :=
  Host.Outcome.next.inj ((processStage_eq st s).symm.trans h)

/-- ME follows WB in the walk, so an effect that ends the tick in ME, on what WB's turn left, leaves the state after
the tick. -/
theorem step_of_me_effect_ended {s u : State} {r : Record} (hrun : s.status = .running)
    (hwb : processStage .wb s = .next u) (hstill : u.status = .running) (hready : ReadyUnfired u.slots.me r)
    (hbound : effectStage r.opcode = .me) (hended : (effect r.instr u).status ≠ .running) :
    step s = .next (effect r.instr u) := by
  obtain ⟨ce, cn, hslot, hcount⟩ := hready
  have hturnWb : turn .wb s = u := turn_of_processStage hwb
  have hturnMe : turn .me u = effect r.instr u := by
    rw [turn_fires (st := .me) hslot hcount hbound, afterEffect_of_ended .me r false hended]
  have hwalk : walked stageOrder s = effect r.instr u := by
    rw [stageOrder, walked_cons_running (by rwa [hturnWb]), hturnWb, walked_cons_ended (by rwa [hturnMe]), hturnMe]
  rw [step_eq, ticked, if_pos hrun, hwalk, if_neg hended]

/-! ### The effects that fault -/

/-- The effect is the state `exec` answers. -/
theorem effect_of_exec {i : Instr} {s t : State} (h : exec i s = .next t) : effect i s = t :=
  Host.Outcome.next.inj ((exec_eq_effect i s).symm.trans h)

/-- The effect of a FILL record. -/
theorem effect_of_fill {r : Record} (hop : r.opcode = .fill) (s : State) :
    effect r.instr s = s.takeFault .fatalMisexecution := by
  simp [Record.instr, hop, effect]

/-- The effect of an LW record whose address refers to nothing. -/
theorem effect_of_lw_outOfRange {r : Record} {s : State} (hop : r.opcode = .lw)
    (hout : s.outOfRange (wrap16 ((s.readReg r.regB).toInt + r.sImmed)) = true) :
    effect r.instr s = s.takeFault .addressOutOfRange := by
  have hinstr : r.instr = .lw r.regA r.regB r.sImmed := by simp [Record.instr, hop]
  rw [hinstr]
  exact effect_of_exec (by rw [exec_lw_eq_load, load_of_outOfRange _ hout])

/-- The effect of an SW record whose address refers to nothing. -/
theorem effect_of_sw_outOfRange {r : Record} {s : State} (hop : r.opcode = .sw)
    (hout : s.outOfRange (wrap16 ((s.readReg r.regB).toInt + r.sImmed)) = true) :
    effect r.instr s = s.takeFault .addressOutOfRange := by
  have hinstr : r.instr = .sw r.regA r.regB r.sImmed := by simp [Record.instr, hop]
  rw [hinstr]
  exact effect_of_exec (by rw [exec_sw_eq_store, store_of_outOfRange _ hout])

/-- Taking a fault ends the tick. -/
theorem takeFault_ended (s : State) (k : Fault) : (s.takeFault k).status ≠ .running := by simp

/-- A record in WB whose effect takes a fault: the fault is the state after the tick. -/
theorem step_of_wb_fault {s : State} {r : Record} {k : Fault} (hrun : s.status = .running)
    (hready : ReadyUnfired s.slots.wb r) (hbound : effectStage r.opcode = .wb)
    (heffect : effect r.instr s = s.takeFault k) : step s = .next (s.takeFault k) := by
  rw [step_of_wb_effect_ended hrun hready hbound (heffect ▸ takeFault_ended s k), heffect]

/-! ### The statements -/

/-- Settles O28: the effect takes the fault, and an effect that ends the tick, in WB on the tick's first state or in ME
on what WB left, is the state after the tick. -/
theorem faultsEndTheTick : Obligations.FaultsEndTheTick := by
  unfold Obligations.FaultsEndTheTick
  refine ⟨fun s r hrun hready => ⟨fun hop => ?fill, fun hop hout => ?load⟩,
    fun s u r hrun hwb hstill hready hop hout => ?store⟩
  case fill => exact step_of_wb_fault hrun hready (by rw [hop]; rfl) (effect_of_fill hop s)
  case load =>
    exact step_of_wb_fault hrun hready (by rw [hop]; rfl) (effect_of_lw_outOfRange hop ((outOfRange_iff s _).2 hout))
  case store =>
    have heffect := effect_of_sw_outOfRange hop ((outOfRange_iff u _).2 hout)
    have hbound : effectStage r.opcode = .me := by rw [hop]; rfl
    rw [step_of_me_effect_ended hrun hwb hstill hready hbound (heffect ▸ takeFault_ended u _), heffect]
    rfl

/-- Settles O34: a turn fires the bound effect on the state it finds, and otherwise only moves; the flag is the
invariant's. -/
theorem effectsAreBoundToOneStage : Obligations.EffectsAreBoundToOneStage := by
  unfold Obligations.EffectsAreBoundToOneStage
  refine ⟨by decide, fun s st r ce cn f hrun hslot => ⟨?bound, ?unbound, ?flag⟩⟩
  case bound =>
    rintro hready hbound rfl
    exact ⟨effect r.instr s, exec_eq_effect r.instr s, by rw [processStage_eq, turn_fires hslot hready hbound]⟩
  case unbound =>
    intro hready hunbound
    refine ⟨s.advance st r, ?_, advance_eq s st r⟩
    rw [processStage_eq, turn_moves hslot hready (.inr hunbound) hrun]
  case flag =>
    intro hinv hunbound
    have hbound : f = true → effectStage r.opcode = st ∧ ce = cn := (hinv.slots st r ce cn f hslot).fired_bound
    exact Bool.eq_false_iff.mpr fun hfired => hunbound (hbound hfired).1

end Sys2Proof.Machine
end

section
/-! PROOFS. 44_pipeline.md R155, R163: the squash, which every committed transfer ends with, and the snapshot. -/

namespace Sys2Proof.Machine

/-! ### The squash (44_pipeline.md R155) -/

/-- A squash changes the slot IF alone. -/
theorem squash_frame (s : State) :
    s.squash = { s with slots := { s.slots with ifetch := s.squash.slots.ifetch } } := by
  rw [squash_eq]; rfl

/-- A taken BEQ is a pc write and a squash, whatever stands in RR. -/
theorem exec_beq_eq_squash {s : State} {a b : RegIndex} (i : Int) (h : s.readReg a = s.readReg b) :
    exec (.beq a b i) s = .next (State.squash { s with pc := branchTarget s.controlAddress i }) := by
  have heq : s.registersEqual a b = true := beq_iff_eq.mpr h
  simp [exec_eq_effect, effect, heq, State.jumpTo]

/-- A JALR is a register write, a pc write and a squash, whatever stands in RR. -/
theorem exec_jalr_eq_squash (s : State) (a b : RegIndex) :
    ∃ regs target, exec (.jalr a b) s = .next (State.squash { s with regs := regs, pc := target }) := by
  obtain ⟨hlinked, -, -⟩ := writeReg_onlyRegister s a (linkValue s.controlAddress)
  rw [exec_eq_effect, effect, jumpAndLink_eq]
  generalize s.writeReg a (linkValue s.controlAddress) = linked at hlinked ⊢
  rw [hlinked]
  exact ⟨linked.regs, _, rfl⟩

/-- Settles O22: the squash replaces the slot IF alone, and both transfers end with it. -/
theorem squashPutsTheBubbleIntoFetch : Obligations.SquashPutsTheBubbleIntoFetch := by
  unfold Obligations.SquashPutsTheBubbleIntoFetch
  exact ⟨rfl, fun s => ⟨squash_squashedFetch s, squash_frame s, fun _ _ i heq => ⟨_, exec_beq_eq_squash i heq⟩,
    exec_jalr_eq_squash s⟩⟩

/-! ### The snapshot (44_pipeline.md R163) -/

/-- The list of register indices has each index at its own place. -/
theorem registerIndices_getElem? (q : RegIndex) : registerIndices[q.val]? = some q := by
  revert q; decide

/-- The snapshot has each register's reading at the register's place. -/
theorem snapshot_registers_getElem? (s : State) (q : RegIndex) :
    s.snapshot.registers[q.val]? = some (s.readReg q) := by
  rw [State.snapshot, List.getElem?_map, registerIndices_getElem?]; rfl

/-- The snapshot has each data word at its index. -/
theorem snapshot_data_getElem? (s : State) {k : Nat} (hk : k < dataSize) :
    s.snapshot.data[k]? = some (Memory.read s.data k) := by
  rw [State.snapshot, List.getElem?_map, List.getElem?_range hk]; rfl

/-- The snapshot has every data word. -/
theorem snapshot_data_length (s : State) : s.snapshot.data.length = dataSize := by
  rw [State.snapshot, List.length_map, List.length_range]

/-- Settles O54, field by field. -/
theorem snapshotReportsTheState : Obligations.SnapshotReportsTheState := by
  unfold Obligations.SnapshotReportsTheState
  intro s
  have hview (x : Slot) : (x = .empty → x.view = none) ∧ ∀ r ce cn f, x = .occ r ce cn f → x.view = some ⟨r, ce, cn⟩ :=
    ⟨fun hempty => by rw [hempty]; rfl, fun _ _ _ _ hocc => by rw [hocc]; rfl⟩
  exact ⟨rfl, rfl, rfl, rfl, hview, snapshot_registers_getElem? s, rfl, fun _ hk => snapshot_data_getElem? s hk,
    snapshot_data_length s⟩

end Sys2Proof.Machine
end

section
/-! LAWS and CLAIMS. The numeric codes of statuses, faults and load errors, and the exit code of an outcome
(60_exceptions.md R185, R192): O55. -/

namespace Sys2Proof.Machine

/-- No load error exits with 0, ProgramTooLarge as little as InvalidSource (60_exceptions.md R192, D23). -/
theorem loadErrorExitsWithZero_eq_false (e : LoadError) : loadErrorExitsWithZero e = false := by
  cases e with
  | invalidSource _ => rfl
  | programTooLarge => rfl

/-- Settles O55: each code is a row of the tables of R185 and R192, and the load errors are split by their kind. -/
theorem codesOfOutcomes : Obligations.CodesOfOutcomes := by
  unfold Obligations.CodesOfOutcomes
  refine ⟨rfl, rfl, rfl, ?faultStatus, rfl, rfl, ?invalidSource, rfl, rfl, rfl, ?faultExit,
    loadErrorExitsWithZero_eq_false⟩
  case faultStatus => exact fun _ => rfl
  case invalidSource => exact fun _ => rfl
  case faultExit => exact fun _ => rfl

end Sys2Proof.Machine
end

section
/-! PROOFS. 30_encoding.md R64 to R66, R70 to R75, R93: the encoder's lines are lines of the grammar, and a line outside
it is refused. Both follow from the decoder inverted: an accepted line writes literals of its instruction's values. -/

namespace Sys2Proof

/-! ### The encoder's lines are lines of the grammar -/

theorem literalOf_encodeInt (v : Int) : LiteralOf (encodeInt v) v := parseInt_eq_some.mp (parseInt_encodeInt v)

theorem literalOf_encodeNat (n : Nat) : LiteralOf (encodeNat n) (n : Int) := parseInt_eq_some.mp (parseInt_encodeNat n)

theorem literalOf_encodeRegister (r : RegIndex) : LiteralOf (encodeRegister r) (r.val : Int) :=
  literalOf_encodeNat r.val

/-- A mnemonic with literals is written with these values, with nothing around it. -/
theorem writes_writtenLine (m : Mnemonic) {ops : List Line} {vals : List Int} (h : List.Forall₂ LiteralOf ops vals) :
    Writes (writtenLine m ops) m vals :=
  ⟨[], [], ops, by simp, by simp, by simp, h⟩

/-- An instruction's line writes its mnemonic and its operand values, whether they are in range or not. -/
theorem writes_encode (i : Instr) : Writes (encode i) i.mnemonic i.operandValues := by
  have reg := literalOf_encodeRegister
  have int := literalOf_encodeInt
  cases i with
  | add a b c | nand a b c =>
    exact writes_writtenLine _ (.cons (reg a) (.cons (reg b) (.cons (reg c) .nil)))
  | addi a b n | lw a b n | sw a b n | beq a b n =>
    exact writes_writtenLine _ (.cons (reg a) (.cons (reg b) (.cons (int n) .nil)))
  | jalr a b => exact writes_writtenLine _ (.cons (reg a) (.cons (reg b) .nil))
  | jalr00 => exact writes_writtenLine _ (.cons (reg 0) (.cons (reg 0) .nil))
  | lui a u => exact writes_writtenLine _ (.cons (reg a) (.cons (literalOf_encodeNat u) .nil))
  | nop | halt => exact writes_writtenLine _ .nil
  | lli a n => exact writes_writtenLine _ (.cons (reg a) (.cons (int n) .nil))
  | fill v => exact writes_writtenLine _ (.cons (int v) .nil)

/-! ### The values of a well-formed instruction -/

/-- A literal has one value. -/
theorem literalOf_unique {l : Line} {v w : Int} (hv : LiteralOf l v) (hw : LiteralOf l w) : v = w :=
  Option.some.inj ((parseInt_eq_some.mpr hv).symm.trans (parseInt_eq_some.mpr hw))

/-- Literals have one list of values. -/
theorem literals_unique {ops : List Line} {vals vals' : List Int} (h : List.Forall₂ LiteralOf ops vals)
    (h' : List.Forall₂ LiteralOf ops vals') : vals = vals' := by
  induction h generalizing vals' with
  | nil => exact (List.forall₂_nil_left_iff.mp h').symm
  | cons hx _ ih =>
    cases h' with
    | cons hx' hxs' => rw [literalOf_unique hx hx', ih hxs']

/-- An operand value in its position's range. -/
def InRange (v : Int) (range : Int × Int) : Prop := range.1 ≤ v ∧ v ≤ range.2

/-- A register's index is in a register position's range. -/
theorem inRange_register (r : RegIndex) : InRange (r.val : Int) (0, 7) := ⟨by omega, by simp only; omega⟩

theorem inRange_signed {i : Int} (h : signedImmediateOk i = true) : InRange i (-64, 63) := by
  simpa [signedImmediateOk, InRange] using h

theorem inRange_unsigned {u : Nat} (h : unsignedImmediateOk u = true) : InRange (u : Int) (0, 1023) := by
  have hu : u ≤ 1023 := of_decide_eq_true h
  exact ⟨by simp, by simp only; omega⟩

theorem inRange_fill {v : Int} (h : fillValueOk v = true) : InRange v (-32768, 32767) := by
  simpa [fillValueOk, InRange] using h

/-- A well-formed instruction has a value in range for each position of its mnemonic. -/
theorem operandValues_inRange {i : Instr} (h : i.wellFormed = true) :
    List.Forall₂ InRange i.operandValues i.mnemonic.ranges := by
  have reg := inRange_register
  cases i with
  | add a b c | nand a b c => exact .cons (reg a) (.cons (reg b) (.cons (reg c) .nil))
  | addi a b n | lw a b n | sw a b n | beq a b n =>
    exact .cons (reg a) (.cons (reg b) (.cons (inRange_signed h) .nil))
  | jalr a b => exact .cons (reg a) (.cons (reg b) .nil)
  | jalr00 => exact .cons (reg 0) (.cons (reg 0) .nil)
  | lui a u => exact .cons (reg a) (.cons (inRange_unsigned h) .nil)
  | nop | halt => exact .nil
  | lli a n => exact .cons (reg a) (.cons (inRange_signed h) .nil)
  | fill v => exact .cons (inRange_fill h) .nil

/-- Values that stand in the ranges stand in them position by position. -/
theorem inRange_of_getElem? {vals : List Int} {ranges : List (Int × Int)} (h : List.Forall₂ InRange vals ranges)
    {k : Nat} {v lo hi : Int} (hv : vals[k]? = some v) (hr : ranges[k]? = some (lo, hi)) : lo ≤ v ∧ v ≤ hi := by
  obtain ⟨hk, hv⟩ := List.getElem?_eq_some_iff.mp hv
  obtain ⟨hk', hr⟩ := List.getElem?_eq_some_iff.mp hr
  have hat : InRange vals[k] ranges[k] := h.get hk hk'
  rwa [hv, hr] at hat

/-! ### Literals of the right number are read, or one is out of range -/

/-- No other error than a value out of range. -/
def OnlyOutOfRange {α : Type} (x : Except DecodeError α) : Prop := ∀ e, x = .error e → e = .outOfRange

theorem literalIn_onlyOutOfRange {l : Line} {v : Int} (h : LiteralOf l v) (lo hi : Int) :
    OnlyOutOfRange (literalIn lo hi l) := by
  intro e he
  rw [literalIn, parseInt_eq_some.mpr h] at he
  dsimp only at he
  split at he
  · cases he
  · exact (Except.error.inj he).symm

theorem registerOperand_onlyOutOfRange {l : Line} {v : Int} (h : LiteralOf l v) :
    OnlyOutOfRange (registerOperand l) := by
  intro e he
  unfold registerOperand at he
  split at he
  next e' he' => exact Except.error.inj he ▸ literalIn_onlyOutOfRange h 0 7 e' he'
  next => cases he

theorem unsignedOperand_onlyOutOfRange {l : Line} {v : Int} (h : LiteralOf l v) :
    OnlyOutOfRange (unsignedOperand l) := by
  intro e he
  unfold unsignedOperand at he
  split at he
  next e' he' => exact Except.error.inj he ▸ literalIn_onlyOutOfRange h 0 1023 e' he'
  next => cases he

/-- Of three operands the first that fails gives the reason. -/
theorem threeRegisters_onlyOutOfRange (mk : RegIndex → RegIndex → RegIndex → Instr) {x y z : Line} {u v w : Int}
    (hx : LiteralOf x u) (hy : LiteralOf y v) (hz : LiteralOf z w) : OnlyOutOfRange (threeRegisters mk [x, y, z]) := by
  intro e he
  dsimp only [threeRegisters] at he
  split at he
  · cases he
  next h => exact Except.error.inj he ▸ registerOperand_onlyOutOfRange hx _ h
  next h _ => exact Except.error.inj he ▸ registerOperand_onlyOutOfRange hy _ h
  next h _ _ => exact Except.error.inj he ▸ registerOperand_onlyOutOfRange hz _ h

theorem twoRegistersSigned_onlyOutOfRange (mk : RegIndex → RegIndex → Int → Instr) {x y z : Line} {u v w : Int}
    (hx : LiteralOf x u) (hy : LiteralOf y v) (hz : LiteralOf z w) :
    OnlyOutOfRange (twoRegistersSigned mk [x, y, z]) := by
  intro e he
  dsimp only [twoRegistersSigned] at he
  split at he
  · cases he
  next h => exact Except.error.inj he ▸ registerOperand_onlyOutOfRange hx _ h
  next h _ => exact Except.error.inj he ▸ registerOperand_onlyOutOfRange hy _ h
  next h _ _ => exact Except.error.inj he ▸ literalIn_onlyOutOfRange hz _ _ _ h

theorem twoRegisters_onlyOutOfRange (mk : RegIndex → RegIndex → Instr) {x y : Line} {u v : Int} (hx : LiteralOf x u)
    (hy : LiteralOf y v) : OnlyOutOfRange (twoRegisters mk [x, y]) := by
  intro e he
  dsimp only [twoRegisters] at he
  split at he
  · cases he
  next h => exact Except.error.inj he ▸ registerOperand_onlyOutOfRange hx _ h
  next h _ => exact Except.error.inj he ▸ registerOperand_onlyOutOfRange hy _ h

theorem registerUnsigned_onlyOutOfRange (mk : RegIndex → Nat → Instr) {x y : Line} {u v : Int} (hx : LiteralOf x u)
    (hy : LiteralOf y v) : OnlyOutOfRange (registerUnsigned mk [x, y]) := by
  intro e he
  dsimp only [registerUnsigned] at he
  split at he
  · cases he
  next h => exact Except.error.inj he ▸ registerOperand_onlyOutOfRange hx _ h
  next h _ => exact Except.error.inj he ▸ unsignedOperand_onlyOutOfRange hy _ h

theorem registerSigned_onlyOutOfRange (mk : RegIndex → Int → Instr) {x y : Line} {u v : Int} (hx : LiteralOf x u)
    (hy : LiteralOf y v) : OnlyOutOfRange (registerSigned mk [x, y]) := by
  intro e he
  dsimp only [registerSigned] at he
  split at he
  · cases he
  next h => exact Except.error.inj he ▸ registerOperand_onlyOutOfRange hx _ h
  next h _ => exact Except.error.inj he ▸ literalIn_onlyOutOfRange hy _ _ _ h

theorem oneFillValue_onlyOutOfRange (mk : Int → Instr) {x : Line} {u : Int} (hx : LiteralOf x u) :
    OnlyOutOfRange (oneFillValue mk [x]) := by
  intro e he
  dsimp only [oneFillValue] at he
  split at he
  · cases he
  next h => exact Except.error.inj he ▸ literalIn_onlyOutOfRange hx _ _ _ h

/-- As many literals as a mnemonic takes operands are read, or a value is out of range. -/
theorem readOperands_onlyOutOfRange {m : Mnemonic} {ops : List Line} {vals : List Int}
    (h : List.Forall₂ LiteralOf ops vals) (hlen : vals.length = m.ranges.length) :
    OnlyOutOfRange (readOperands m ops) := by
  cases m with
  | add | nand =>
    obtain ⟨u, v, w, rfl⟩ := List.length_eq_three.mp hlen
    obtain _ | ⟨hx, _ | ⟨hy, _ | ⟨hz, _ | _⟩⟩⟩ := h
    exact threeRegisters_onlyOutOfRange _ hx hy hz
  | addi | lw | sw | beq =>
    obtain ⟨u, v, w, rfl⟩ := List.length_eq_three.mp hlen
    obtain _ | ⟨hx, _ | ⟨hy, _ | ⟨hz, _ | _⟩⟩⟩ := h
    exact twoRegistersSigned_onlyOutOfRange _ hx hy hz
  | jalr =>
    obtain ⟨u, v, rfl⟩ := List.length_eq_two.mp hlen
    obtain _ | ⟨hx, _ | ⟨hy, _ | _⟩⟩ := h
    exact twoRegisters_onlyOutOfRange _ hx hy
  | lui =>
    obtain ⟨u, v, rfl⟩ := List.length_eq_two.mp hlen
    obtain _ | ⟨hx, _ | ⟨hy, _ | _⟩⟩ := h
    exact registerUnsigned_onlyOutOfRange _ hx hy
  | nop | halt =>
    obtain rfl := List.length_eq_zero_iff.mp hlen
    cases h
    intro e he
    cases he
  | lli =>
    obtain ⟨u, v, rfl⟩ := List.length_eq_two.mp hlen
    obtain _ | ⟨hx, _ | ⟨hy, _ | _⟩⟩ := h
    exact registerSigned_onlyOutOfRange _ hx hy
  | fill =>
    obtain ⟨u, rfl⟩ := List.length_eq_one_iff.mp hlen
    obtain _ | ⟨hx, _ | _⟩ := h
    exact oneFillValue_onlyOutOfRange _ hx

/-- A line that is in the grammar but for a value out of its position's range. -/
theorem decodeLine_of_writes_outOfRange {l : Line} {m : Mnemonic} {vals : List Int} (h : Writes l m vals)
    (hlen : vals.length = m.ranges.length) (hout : ¬ List.Forall₂ InRange vals m.ranges) :
    decodeLine l = .error .outOfRange := by
  obtain ⟨front, back, ops, hf, hb, rfl, hlit⟩ := h
  rw [decodeLine_append_space (fun c hc => isSpace_iff.mpr (hf c hc)) (fun c hc => isSpace_iff.mpr (hb c hc)),
    decodeLine_writtenLine _ hlit]
  cases hread : readOperands m ops with
  | error e => rw [readOperands_onlyOutOfRange hlit hlen e hread]
  | ok i =>
    obtain ⟨rfl, hlit', hw⟩ := literals_of_readOperands hread
    exact absurd (literals_unique hlit' hlit ▸ operandValues_inRange hw) hout

/-! ### A refused text -/

/-- An instruction has as many values as its mnemonic has positions. -/
theorem operandValues_length (i : Instr) : i.operandValues.length = i.mnemonic.ranges.length := by
  cases i <;> rfl

/-- What an accepted text is, its literals and their values included. -/
theorem literals_of_decodeTrimmed {t : Line} {i : Instr} (h : decodeTrimmed t = .ok i) :
    ∃ ops, t = writtenLine i.mnemonic ops ∧ List.Forall₂ LiteralOf ops i.operandValues ∧
      List.Forall₂ InRange i.operandValues i.mnemonic.ranges := by
  obtain ⟨m, ops, ht, hread⟩ := writtenLine_of_decodeTrimmed h
  obtain ⟨rfl, hlit, hw⟩ := literals_of_readOperands hread
  exact ⟨ops, ht, hlit, operandValues_inRange hw⟩

/-- A text that starts and ends with something else than whitespace is refused with whitespace around it if the trimmed
decoder accepts it as no instruction. -/
theorem refused_around {front t back : Line} (hf : ∀ c ∈ front, c ∈ whitespace) (hb : ∀ c ∈ back, c ∈ whitespace)
    (hhead : ∀ c, t.head? = some c → c ∉ whitespace) (hlast : ∀ c, t.getLast? = some c → c ∉ whitespace)
    (h : ∀ i, decodeTrimmed t ≠ .ok i) : Refused (front ++ t ++ back) := by
  have hno {c : Char} (hc : c ∉ whitespace) : isSpace c = false := by
    rwa [← isSpace_iff, Bool.not_eq_true] at hc
  rw [refused_iff,
    decodeLine_append_space (fun c hc => isSpace_iff.mpr (hf c hc)) fun c hc => isSpace_iff.mpr (hb c hc), decodeLine,
    trim_eq_self (fun c hc => hno (hhead c hc)) fun c hc => hno (hlast c hc)]
  exact h

/-- A spelling holds no space. -/
theorem space_not_mem_spelling (m : Mnemonic) : ' ' ∉ m.spelling :=
  fun h => absurd (spelling_no_space m ' ' h) (by decide)

/-- Spellings tell the mnemonics apart. -/
theorem spelling_injective {m m' : Mnemonic} (h : m.spelling = m'.spelling) : m = m' :=
  Option.some.inj ((readMnemonic_spelling m).symm.trans (h ▸ readMnemonic_spelling m'))

/-- A written line without a space is its mnemonic alone. -/
theorem ops_eq_nil_of_no_space {m : Mnemonic} {ops : List Line} (h : ' ' ∉ writtenLine m ops) : ops = [] := by
  cases ops with
  | nil => rfl
  | cons x xs => exact absurd (by simp [writtenLine]) h

/-- Up to the first space. -/
theorem takeWhile_append_space {p : Line} (hp : ' ' ∉ p) (l : Line) : (p ++ ' ' :: l).takeWhile (· != ' ') = p := by
  have hall : ∀ c ∈ p, (c != ' ') = true := fun c hc => bne_iff_ne.mpr fun h => hp (h ▸ hc)
  rw [List.takeWhile_append_of_pos hall, List.takeWhile_cons_of_neg (by simp), List.append_nil]

/-- The first space of a text is in one place. -/
theorem append_space_inj {p q l l' : Line} (hp : ' ' ∉ p) (hq : ' ' ∉ q) (h : p ++ ' ' :: l = q ++ ' ' :: l') :
    p = q ∧ l = l' := by
  obtain rfl : p = q := by rw [← takeWhile_append_space hp l, h, takeWhile_append_space hq]
  exact ⟨rfl, by simpa using h⟩

/-- A written line with a space splits there into its mnemonic and its joined pieces. -/
theorem pieces_of_writtenLine {m : Mnemonic} {ops : List Line} {word rest : Line}
    (h : word ++ ' ' :: rest = writtenLine m ops) (hword : ' ' ∉ word) :
    word = m.spelling ∧ rest = joinCommas ops ∧ ops ≠ [] := by
  cases ops with
  | nil =>
    have hspace : ' ' ∈ writtenLine m [] := h ▸ by simp
    exact absurd hspace (space_not_mem_spelling m)
  | cons x xs =>
    obtain ⟨hm, hrest⟩ := append_space_inj hword (space_not_mem_spelling m) h
    exact ⟨hm, hrest, by simp⟩

/-! ### The statements -/

/-- Settles O1: the encoder's line is a line of the grammar that writes the instruction's own values. -/
theorem decodeInvertsEncode : Obligations.DecodeInvertsEncode := by
  unfold Obligations.DecodeInvertsEncode
  exact fun i hw => decodeLine_of_writes (writes_encode i) hw

/-- An ill-formed instruction other than JALR 0,0 has a value out of its range. -/
theorem not_inRange_of_illFormed {i : Instr} (h : i.wellFormed = false) (hi : i ≠ .jalr 0 0) :
    ¬ List.Forall₂ InRange i.operandValues i.mnemonic.ranges := by
  cases i with
  | add a b c | nand a b c | jalr00 | nop | halt => simp [Instr.wellFormed] at h
  | addi a b n | lw a b n | sw a b n | beq a b n =>
    rintro (_ | ⟨-, _ | ⟨-, _ | ⟨hn, -⟩⟩⟩)
    exact of_decide_eq_false h hn
  | jalr a b =>
    have hab : a = 0 ∧ b = 0 := by simpa [Instr.wellFormed] using h
    exact absurd (by rw [hab.1, hab.2]) hi
  | lui a u =>
    rintro (_ | ⟨-, _ | ⟨⟨-, hu⟩, -⟩⟩)
    exact of_decide_eq_false h (by simp only at hu; omega)
  | lli a n =>
    rintro (_ | ⟨-, _ | ⟨hn, -⟩⟩)
    exact of_decide_eq_false h hn
  | fill v =>
    rintro (_ | ⟨hv, -⟩)
    exact of_decide_eq_false h hv

/-- Settles O2: literals of the right number can fail in their values alone, and the encoder writes such literals. -/
theorem illFormedOperandsAreRefused : Obligations.IllFormedOperandsAreRefused := by
  unfold Obligations.IllFormedOperandsAreRefused
  refine ⟨fun l m vals hwrites hlen k v lo hi hv hr hout => ?literal, fun i hi => ?encoded⟩
  case literal =>
    refine decodeLine_of_writes_outOfRange hwrites hlen fun hin => ?_
    have := inRange_of_getElem? hin hv hr
    omega
  case encoded =>
    by_cases hpair : i = .jalr 0 0
    · exact .inl ⟨hpair, by rw [hpair]; exact Machine.decodeLine_jalr_zero_zero⟩
    · exact .inr ⟨hpair, decodeLine_of_writes_outOfRange (writes_encode i) (operandValues_length i)
        (not_inRange_of_illFormed hi hpair)⟩

/-- Settles O3: one half of the decoder's inversion. -/
theorem decodedInstructionsAreWellFormed : Obligations.DecodedInstructionsAreWellFormed := by
  unfold Obligations.DecodedInstructionsAreWellFormed
  exact fun l i h => (decodeLine_eq_ok.mp h).2

/-- Settles O4: both are functions of the trimmed line. -/
theorem surroundingWhitespaceIsIgnored : Obligations.SurroundingWhitespaceIsIgnored := by
  unfold Obligations.SurroundingWhitespaceIsIgnored
  exact fun front l back hf hb => ⟨decodeLine_append_space hf hb l, trim_append_space hf hb l⟩

/-- Settles O57: an accepted text is a mnemonic with literals in range, one for each position; every clause contradicts
one part of that. -/
theorem linesOutsideTheGrammarAreRefused : Obligations.LinesOutsideTheGrammarAreRefused := by
  unfold Obligations.LinesOutsideTheGrammarAreRefused
  intro front t back hf hb hhead hlast
  have refuse := refused_around hf hb hhead hlast
  refine ⟨fun ht => ?blank, fun hspace hnone => ?noSpace, fun word rest ht hword => ?_⟩
  case blank =>
    refine refuse fun i hi => ?_
    rw [ht] at hi
    cases hi
  case noSpace =>
    refine refuse fun i hi => ?_
    obtain ⟨ops, ht, hlit, hin⟩ := literals_of_decodeTrimmed hi
    obtain rfl := ops_eq_nil_of_no_space (ht ▸ hspace)
    rw [List.forall₂_nil_left_iff.mp hlit, List.forall₂_nil_left_iff] at hin
    exact hnone i.mnemonic hin ht
  have split {i : Instr} (hi : decodeTrimmed t = .ok i) : ∃ ops, word = i.mnemonic.spelling ∧ rest = joinCommas ops ∧
      ops ≠ [] ∧ List.Forall₂ LiteralOf ops i.operandValues ∧
      List.Forall₂ InRange i.operandValues i.mnemonic.ranges := by
    obtain ⟨ops, ht', hlit, hin⟩ := literals_of_decodeTrimmed hi
    obtain ⟨hm, hrest, hne⟩ := pieces_of_writtenLine (ht.symm.trans ht') hword
    exact ⟨ops, hm, hrest, hne, hlit, hin⟩
  refine ⟨fun ⟨c, hc, hspace⟩ => ?spaceInOperands, fun hunknown => ?unknown, fun m ops hm hrest hne hcomma => ?_⟩
  case spaceInOperands =>
    refine refuse fun i hi => ?_
    obtain ⟨ops, -, hrest, -, hlit, -⟩ := split hi
    have hno := joinCommas_no_space (fun x hx => (operandText_of_literals hlit x hx).1) c (hrest ▸ hc)
    exact absurd (isSpace_iff.mpr hspace) (by simp [hno])
  case unknown =>
    refine refuse fun i hi => ?_
    obtain ⟨-, hm, -⟩ := split hi
    exact hunknown i.mnemonic hm
  have same {i : Instr} (hi : decodeTrimmed t = .ok i) : m = i.mnemonic ∧ List.Forall₂ LiteralOf ops i.operandValues ∧
      List.Forall₂ InRange i.operandValues i.mnemonic.ranges := by
    obtain ⟨ops', hm', hrest', hne', hlit, hin⟩ := split hi
    have hcomma' : ∀ x ∈ ops', ',' ∉ x := fun x hx => operandText_no_comma (operandText_of_literals hlit x hx).1
    have hops : ops = ops' := by
      rw [← splitCommas_joinCommas hne hcomma, ← splitCommas_joinCommas hne' hcomma', ← hrest, hrest']
    exact ⟨spelling_injective (hm.symm.trans hm'), hops ▸ hlit, hin⟩
  refine ⟨fun hcount => ?count, fun k x lo hi hx hr hout => ?literal⟩
  case count =>
    refine refuse fun i hi => ?_
    obtain ⟨rfl, hlit, hin⟩ := same hi
    exact hcount (hlit.length_eq.trans hin.length_eq)
  case literal =>
    refine refuse fun i hi => ?_
    obtain ⟨rfl, hlit, hin⟩ := same hi
    obtain ⟨hk, hx⟩ := List.getElem?_eq_some_iff.mp hx
    have hk' : k < i.operandValues.length := hlit.length_eq ▸ hk
    have hv : LiteralOf x i.operandValues[k] := hx ▸ hlit.get hk hk'
    have := inRange_of_getElem? hin (List.getElem?_eq_getElem hk') hr
    rcases hout _ hv with h | h <;> omega

/-- Settles O9, one of the seven lines at a time. -/
theorem exampleLinesDecode : Obligations.ExampleLinesDecode := by
  unfold Obligations.ExampleLinesDecode
  refine ⟨?add, ?addi, ?sw, ?beq, Machine.decodeLine_jalr_zero_zero, ?lui, ?fill⟩ <;> decide

end Sys2Proof
end

section
/-! PROOFS. 44_pipeline.md R144 to R151: what the effect of a record, a turn and the walk can do, each said
once; and from that what each leaves unchanged. -/

namespace Sys2Proof.Machine

/-! ### What the effect of a record can do -/

/-- The index in the data region of the word a store of `r` from N on writes (20_memory.md R42). -/
def State.storeIndex (s : State) (r : Record) : Nat := (s.effectiveAddress r.regB r.sImmed).toNat - s.programSize

/-- `Applies r s t`: the effect of the record `r` at the state `s` leaves `t`, and why (44_pipeline.md R150). -/
inductive Applies (r : Record) (s : State) : State → Prop where
  /-- A register is written at WB. -/
  | write (v : Word) (hop : writesAtWb r.opcode = true) : Applies r s (s.writeReg r.regA v)
  /-- A store changes a data word at ME. -/
  | store (hop : r.opcode = .sw) (hin : s.outOfRange (s.effectiveAddress r.regB r.sImmed) = false)
      (hdata : s.programSize ≤ (s.effectiveAddress r.regB r.sImmed).toNat) :
      Applies r s { s with data := Memory.write s.data (s.storeIndex r) (s.readReg r.regA) }
  /-- A store below N is ignored, and a BEQ of different registers is not taken. -/
  | nothing (hop : r.opcode = .sw ∨ r.opcode = .beq ∧ s.readReg r.regA ≠ s.readReg r.regB) : Applies r s s
  /-- A BEQ is taken at RR. -/
  | branch (hop : r.opcode = .beq) (heq : s.readReg r.regA = s.readReg r.regB) :
      Applies r s (s.jumpTo (branchTarget s.controlAddress r.sImmed))
  /-- A JALR links and jumps at RR. -/
  | link (hop : r.opcode = .jalr) : Applies r s (s.jumpAndLink r.regA r.regB)
  /-- A HALT retires at WB. -/
  | halt (hop : r.opcode = .halt) : Applies r s s.halt
  /-- A load, a store or a FILL faults. -/
  | fault (k : Fault) (hop : effectStage r.opcode ≠ .rr) : Applies r s (s.takeFault k)

/-- The effect of a record is one of these cases. -/
theorem applies_effect (r : Record) (s : State) : Applies r s (effect r.instr s) := by
  unfold Record.instr
  cases hop : r.opcode with
  | add | addi | nand | lui => exact .write _ (by rw [hop]; rfl)
  | lw =>
    dsimp only [effect]
    rcases load_cases s r.regA (s.effectiveAddress r.regB r.sImmed) with ⟨-, e⟩ | ⟨-, e⟩ <;> rw [e]
    · exact .fault _ (by rw [hop]; decide)
    · exact .write _ (by rw [hop]; rfl)
  | sw =>
    dsimp only [effect]
    rcases store_cases s (s.effectiveAddress r.regB r.sImmed) (s.readReg r.regA) with
      ⟨-, e⟩ | ⟨-, -, e⟩ | ⟨hin, hdata, e⟩ <;> rw [e]
    · exact .fault _ (by rw [hop]; decide)
    · exact .nothing (.inl hop)
    · exact .store hop hin hdata
  | beq =>
    dsimp only [effect]
    split
    next heq => exact .branch hop (beq_iff_eq.mp heq)
    next hne => exact .nothing (.inr ⟨hop, fun heq => hne (beq_iff_eq.mpr heq)⟩)
  | jalr => exact .link hop
  | halt => exact .halt hop
  | fill => exact .fault _ (by rw [hop]; decide)

/-- The opcodes that write a register at WB have their effect there. -/
theorem effectStage_of_writesAtWb {op : Opcode} (h : writesAtWb op = true) : effectStage op = .wb := by
  cases op <;> first | rfl | cases h

/-- No effect changes the program or the configuration. -/
theorem effect_fixed (r : Record) (s : State) :
    (effect r.instr s).source = s.source ∧ (effect r.instr s).config = s.config := by
  have h := applies_effect r s
  generalize effect r.instr s = t at h
  cases h with
  | link => simp [jumpAndLink_eq]
  | _ => simp

/-- The slots after an effect: a transfer in RR changes IF, a HALT in WB clears WB, and nothing else changes. -/
theorem effect_slot {r : Record} {su : Stage} (s : State) (hif : su = .ifetch → effectStage r.opcode ≠ .rr)
    (hwb : su = .wb → r.opcode ≠ .halt) : (effect r.instr s).slot su = s.slot su := by
  have h := applies_effect r s
  unfold State.slot
  generalize effect r.instr s = t at h
  cases h with
  | write | fault => simp
  | store | nothing => rfl
  | branch hop =>
    rw [jumpTo_slots, Slots.get_put_ne]
    rintro rfl
    exact hif rfl (by rw [hop]; rfl)
  | link hop =>
    rw [jumpAndLink_eq, jumpTo_slots, writeReg_slots, Slots.get_put_ne]
    rintro rfl
    exact hif rfl (by rw [hop]; rfl)
  | halt hop =>
    rw [halt_slots, Slots.get_put_ne]
    rintro rfl
    exact hwb rfl hop

/-- The slot a running effect is bound to is as before. -/
theorem effect_slot_bound {r : Record} {st : Stage} {s : State} (hbound : effectStage r.opcode = st)
    (hrun : (effect r.instr s).status = .running) : (effect r.instr s).slot st = s.slot st := by
  refine effect_slot s (fun hst => by rw [hbound, hst]; decide) fun _ hop => ?_
  rw [instr_of_opcode_halt hop] at hrun
  cases hrun

/-! ### What follows an effect -/

/-- After an effect that did not end the tick: the flag and the move. -/
theorem afterEffect_of_fired {s : State} {st : Stage} {r : Record} (hrun : s.status = .running)
    (hbound : effectStage r.opcode = st) : s.afterEffect st r false = (s.markFired st).advance st r := by
  simp [State.afterEffect, hrun, hbound]

/-- The flag is set in its own slot. -/
theorem markFired_slot_ne (s : State) {st su : Stage} (h : su ≠ st) : (s.markFired st).slot su = s.slot su := by
  unfold State.markFired
  split
  · exact Slots.get_put_ne _ _ h
  · rfl

/-- The flag that is set. -/
theorem markFired_slot_same {s : State} {st : Stage} {r : Record} {ce cn : Nat} {f : Bool}
    (h : s.slot st = .occ r ce cn f) : (s.markFired st).slot st = .occ r ce cn true := by
  simp only [State.markFired, h]
  exact Slots.get_put_same _ _ _

/-- No stage comes after itself. -/
theorem nextStage_ne {st down : Stage} (h : nextStage st = some down) : down ≠ st := by
  rintro rfl
  cases down <;> cases h

/-- A move out of WB. -/
theorem advance_wb (s : State) (r : Record) : s.advance .wb r = s.setSlot .wb .empty := rfl

/-- A move into an empty slot. -/
theorem advance_of_empty {s : State} {st down : Stage} (r : Record) (hdown : nextStage st = some down)
    (h : s.slot down = .empty) :
    s.advance st r = (s.setSlot down (s.entering r down)).setSlot st .empty := by
  simp only [State.advance, hdown, h]

/-- No move into a taken slot. -/
theorem advance_of_taken {s : State} {st down : Stage} (r : Record) (hdown : nextStage st = some down)
    (h : s.slot down ≠ .empty) : s.advance st r = s := by
  cases hs : s.slot down with
  | empty => exact absurd hs h
  | occ r' ce cn f => simp only [State.advance, hdown, hs]

/-- A move changes its own slot, and the next if that is empty. -/
theorem advance_slot_ne {s : State} {st su : Stage} (r : Record) (h : su ≠ st)
    (hnext : nextStage st = some su → s.slot su ≠ .empty) : (s.advance st r).slot su = s.slot su := by
  cases hdown : nextStage st with
  | none =>
    simp only [State.advance, hdown]
    exact Slots.get_put_ne _ _ h
  | some down =>
    by_cases he : s.slot down = .empty
    · rw [advance_of_empty r hdown he]
      have hsu : su ≠ down := by
        rintro rfl
        exact hnext hdown he
      exact (Slots.get_put_ne _ _ h).trans (Slots.get_put_ne _ _ hsu)
    · rw [advance_of_taken r hdown he]

/-- The slots a move into an empty slot leaves. -/
theorem advance_slot_moved {s : State} {st down : Stage} (r : Record) (hdown : nextStage st = some down)
    (h : s.slot down = .empty) :
    (s.advance st r).slot st = .empty ∧ (s.advance st r).slot down = s.entering r down := by
  rw [advance_of_empty r hdown h]
  exact ⟨Slots.get_put_same _ _ _, (Slots.get_put_ne _ _ (nextStage_ne hdown)).trans (Slots.get_put_same _ _ _)⟩

/-! ### What a turn can do -/

/-- A turn does nothing, or moves a ready occupant with nothing to apply, or fires an effect and what follows it. -/
theorem turn_cases (st : Stage) {s : State} (hrun : s.status = .running) :
    ((∀ r, ¬ ReadyUnfired (s.slot st) r) ∧ turn st s = s) ∨
    (∃ r ce cn f, s.slot st = .occ r ce cn f ∧ cn ≤ ce ∧ (f = true ∨ effectStage r.opcode ≠ st) ∧
      turn st s = s.advance st r) ∨
    (∃ r ce cn, s.slot st = .occ r ce cn false ∧ cn ≤ ce ∧ effectStage r.opcode = st ∧
      turn st s = (effect r.instr s).afterEffect st r false) := by
  cases hs : s.slot st with
  | empty => exact .inl ⟨fun r ⟨_, _, h, _⟩ => (by cases h), by simp only [turn, hs]⟩
  | occ r ce cn f =>
    by_cases hready : cn ≤ ce
    · by_cases hb : f = true ∨ effectStage r.opcode ≠ st
      · exact .inr (.inl ⟨r, ce, cn, f, rfl, hready, hb, turn_moves hs hready hb hrun⟩)
      · simp only [not_or, Bool.not_eq_true, ne_eq, not_not] at hb
        obtain ⟨rfl, hbound⟩ := hb
        exact .inr (.inr ⟨r, ce, cn, rfl, hready, hbound, turn_fires hs hready hbound⟩)
    · refine .inl ⟨?_, ?_⟩
      · rintro r' ⟨ce', cn', h, hle⟩
        cases h
        exact hready hle
      · simp only [turn, hs, if_neg hready]

/-- What a turn leaves of anything that is not a slot: it is as before, or as the one effect it fired left it. -/
theorem turn_offSlots_cases {α : Type} (g : State → α) (hg : ∀ s x, g { s with slots := x } = g s) (st : Stage)
    {s : State} (hrun : s.status = .running) :
    g (turn st s) = g s ∨
    ∃ r, ReadyUnfired (s.slot st) r ∧ effectStage r.opcode = st ∧ g (turn st s) = g (effect r.instr s) := by
  rcases turn_cases st hrun with ⟨-, e⟩ | ⟨r, ce, cn, f, -, -, -, e⟩ | ⟨r, ce, cn, hs, hready, hbound, e⟩
  · exact .inl (congrArg g e)
  · exact .inl (by rw [e, advance_eq, hg])
  · refine .inr ⟨r, ⟨ce, cn, hs, hready⟩, hbound, ?_⟩
    rw [e]
    by_cases hend : (effect r.instr s).status = .running
    · rw [afterEffect_of_fired hend hbound, advance_eq, hg, markFired_eq, hg]
    · rw [afterEffect_of_ended st r false hend]

/-- A turn leaves the slot of another stage, unless it moves into that slot or, in RR, squashes IF. -/
theorem turn_slot_ne {st su : Stage} {s : State} (hrun : s.status = .running) (h : su ≠ st)
    (hnext : nextStage st = some su → s.slot su ≠ .empty) (hif : su = .ifetch → st ≠ .rr) :
    (turn st s).slot su = s.slot su := by
  rcases turn_cases st hrun with ⟨-, e⟩ | ⟨r, ce, cn, f, -, -, -, e⟩ | ⟨r, ce, cn, hs, hready, hbound, e⟩
  · rw [e]
  · rw [e, advance_slot_ne r h hnext]
  · have heffect : (effect r.instr s).slot su = s.slot su :=
      effect_slot s (fun hsu => hbound ▸ hif hsu) fun hsu hop => h (by rw [hsu, ← hbound, hop]; rfl)
    rw [e]
    by_cases hend : (effect r.instr s).status = .running
    · have hmark := (markFired_slot_ne _ h).trans heffect
      rw [afterEffect_of_fired hend hbound, advance_slot_ne r h (by rwa [hmark]), hmark]
    · rw [afterEffect_of_ended st r false hend, heffect]

/-- No turn changes the program. -/
theorem turn_source (st : Stage) {s : State} (hrun : s.status = .running) : (turn st s).source = s.source := by
  rcases turn_offSlots_cases State.source (fun _ _ => rfl) st hrun with e | ⟨r, -, -, e⟩
  · exact e
  · exact e.trans (effect_fixed r s).1

/-- No turn changes the configuration. -/
theorem turn_config (st : Stage) {s : State} (hrun : s.status = .running) : (turn st s).config = s.config := by
  rcases turn_offSlots_cases State.config (fun _ _ => rfl) st hrun with e | ⟨r, -, -, e⟩
  · exact e
  · exact e.trans (effect_fixed r s).2

/-! ### What the walk can do -/

/-- A walk over some stages and then others: the others see what the first have left, if the tick still runs. -/
theorem walked_append (l l' : List Stage) {s : State} (hrun : s.status = .running) :
    walked (l ++ l') s = if (walked l s).status = .running then walked l' (walked l s) else walked l s := by
  induction l generalizing s with
  | nil => simp [walked, hrun]
  | cons st rest ih =>
    by_cases h : (turn st s).status = .running
    · rw [List.cons_append, walked_cons_running h, walked_cons_running h, ih h]
    · rw [List.cons_append, walked_cons_ended h, walked_cons_ended h, if_neg h]

/-- What no turn of the listed stages changes, the walk over them does not change. -/
theorem walked_keeps {α : Type} (g : State → α) {l : List Stage} (hturn : ∀ st ∈ l, ∀ s : State, s.status = .running →
    g (turn st s) = g s) {s : State} (hrun : s.status = .running) : g (walked l s) = g s := by
  induction l generalizing s with
  | nil => rfl
  | cons st rest ih =>
    have hst := hturn st (by simp) s hrun
    by_cases h : (turn st s).status = .running
    · rw [walked_cons_running h, ih (fun su hsu => hturn su (by simp [hsu])) h, hst]
    · rw [walked_cons_ended h, hst]

/-- What a walk changes, one turn in it changes, at a state that the turns before have left running. -/
theorem exists_turn_of_walked_ne {α : Type} (g : State → α) {l : List Stage} {s : State} (hrun : s.status = .running)
    (h : g (walked l s) ≠ g s) : ∃ older st younger, l = older ++ st :: younger ∧
      (walked older s).status = .running ∧ g (turn st (walked older s)) ≠ g (walked older s) := by
  induction l generalizing s with
  | nil => exact absurd rfl h
  | cons st rest ih =>
    by_cases hst : g (turn st s) = g s
    · by_cases hstill : (turn st s).status = .running
      · rw [walked_cons_running hstill, ← hst] at h
        obtain ⟨older, su, younger, rfl, hrun', hne⟩ := ih hstill h
        exact ⟨st :: older, su, younger, rfl, by rwa [walked_cons_running hstill],
          by rwa [walked_cons_running hstill]⟩
      · rw [walked_cons_ended hstill] at h
        exact absurd hst h
    · exact ⟨[], st, rest, rfl, hrun, hst⟩

/-- The turns of the stages after RR leave the slot RR. -/
theorem walked_slot_rr {s : State} (hrun : s.status = .running) : (walked [.wb, .me, .ex] s).slot .rr = s.slot .rr := by
  refine walked_keeps (State.slot · .rr) (fun st hst u hu => ?_) hrun
  have hne : st ≠ .rr ∧ nextStage st ≠ some .rr := by
    revert st
    decide
  exact turn_slot_ne hu hne.1.symm (absurd · hne.2) nofun

/-! ### What the tick can do -/

/-- A performed tick is its walk, and the end of the tick if the walk did not end it. -/
theorem ticked_of_running {s : State} (hrun : s.status = .running) :
    ticked s = if (walked stageOrder s).status = .running then (walked stageOrder s).endTick else walked stageOrder s :=
  if_pos hrun

/-- A walk that does not end the tick is followed by the end of the tick. -/
theorem ticked_of_walked {s u : State} (hrun : s.status = .running) (hwalk : walked stageOrder s = u)
    (hstill : u.status = .running) : ticked s = u.endTick := by
  rw [ticked_of_running hrun, hwalk, if_pos hstill]

/-- The state a step answers. -/
theorem eq_ticked_of_step {s t : State} (h : step s = .next t) : t = ticked s :=
  (Host.Outcome.next.inj ((step_eq s).symm.trans h)).symm

/-- What no end of a tick changes, a performed tick leaves as its walk did. -/
theorem ticked_eq_walked {α : Type} (g : State → α) (hend : ∀ u : State, g u.endTick = g u) {s : State}
    (hrun : s.status = .running) : g (ticked s) = g (walked stageOrder s) := by
  rw [ticked_of_running hrun]
  split
  · exact hend _
  · rfl

end Sys2Proof.Machine
end

section
/-! PROOFS. 44_pipeline.md R164, 70_reset_and_hazards.md §1: the invariant of a state between ticks. Construction has
it, and every operation a tick is made of keeps it. -/

namespace Sys2Proof.Machine

/-! ### Construction -/

/-- Every entry of a positive table is at least 1 (10_state.md R31). -/
theorem latency_pos {table : LatencyTable} (h : table.positive = true) (op : Opcode) (st : Stage) :
    1 ≤ table.entry op st := by
  have hop : op ∈ opcodes := by cases op <;> decide
  have hst : st ∈ stages := by cases st <;> decide
  exact of_decide_eq_true (List.all_eq_true.mp (List.all_eq_true.mp h op hop) st hst)

/-- A construction from an admitted, stamped and clean program and a positive table has the invariant. -/
theorem construct_inv {config : Config} {source : List Record} (hsize : source.length ≤ maxProgram)
    (haddress : ∀ (k : Nat) (r : Record), source[k]? = some r → r.address = k) (hclean : ∀ r ∈ source, r.clean = true)
    (htable : config.latency.positive = true) : (State.construct config source).Inv where
  zero_register := rfl
  data_wf := rfl
  admitted := hsize
  addresses := haddress
  clean := hclean
  table := htable
  slots := by
    intro st r ce cn f h
    rw [construct_slot] at h
    cases h
  drained := nofun
  halted := nofun

/-! ### What holds of a slot -/

/-- What holds of a slot depends on the program and the configuration alone. -/
theorem slotInv_congr {s t : State} (hsource : t.source = s.source) (hconfig : t.config = s.config) {st : Stage}
    {r : Record} {ce cn : Nat} {f : Bool} (h : SlotInv s st r ce cn f) : SlotInv t st r ce cn f where
  required_pos := h.required_pos
  elapsed_le := h.elapsed_le
  known := hsource ▸ h.known
  fired_bound := h.fired_bound
  required_entry := by
    have hlatency : t.latencyOf r.opcode st = s.latencyOf r.opcode st := by rw [State.latencyOf, hconfig]; rfl
    exact hlatency ▸ h.required_entry

/-- A known record that enters a stage. -/
theorem slotInv_entering {s : State} (hs : s.Inv) {r : Record} (hknown : r = bubble ∨ r ∈ s.source) (st : Stage) :
    SlotInv s st r 0 (s.latencyOf r.opcode st) false where
  required_pos := latency_pos hs.table r.opcode st
  elapsed_le := Nat.zero_le _
  known := hknown
  fired_bound := nofun
  required_entry := .inl rfl

/-- The bubble that takes a squashed occupant's counters. -/
theorem slotInv_squashed {s : State} {r : Record} {ce cn : Nat} {f : Bool} (h : SlotInv s .ifetch r ce cn f) :
    SlotInv s .ifetch bubble ce cn false where
  required_pos := h.required_pos
  elapsed_le := h.elapsed_le
  known := .inl rfl
  fired_bound := nofun
  required_entry := .inr ⟨rfl, rfl⟩

/-- A ready occupant whose effect has just fired. -/
theorem slotInv_fired {s : State} {st : Stage} {r : Record} {ce cn : Nat} {f : Bool} (h : SlotInv s st r ce cn f)
    (hready : cn ≤ ce) (hbound : effectStage r.opcode = st) : SlotInv s st r ce cn true :=
  { h with fired_bound := fun _ => ⟨hbound, Nat.le_antisymm h.elapsed_le hready⟩ }

/-- An occupant counted up: one whose flag is set is already full. -/
theorem slotInv_countUp {s : State} {st : Stage} {r : Record} {ce cn : Nat} {f : Bool} (h : SlotInv s st r ce cn f) :
    SlotInv s st r (min (ce + 1) cn) cn f :=
  { h with
    elapsed_le := Nat.min_le_right _ _
    fired_bound := fun hf => ⟨(h.fired_bound hf).1, by have := (h.fired_bound hf).2; omega⟩ }

/-! ### The operations on a running state -/

/-- A slot may take what holds of a slot. -/
theorem setSlot_inv {s : State} (hs : s.Inv) (hrun : s.status = .running) {st : Stage} {x : Slot}
    (hx : ∀ r ce cn f, x = .occ r ce cn f → SlotInv s st r ce cn f) : (s.setSlot st x).Inv :=
  { hs with
    slots := by
      intro su r ce cn f h
      refine slotInv_congr (s := s) (by rfl) (by rfl) ?_
      rw [State.slot, setSlot_slots, Slots.get_put] at h
      split at h
      next hsu => exact hsu ▸ hx r ce cn f h
      next => exact hs.slots su r ce cn f h
    drained := by simp [hrun]
    halted := by simp [hrun] }

/-- A slot may be emptied. -/
theorem setSlot_empty_inv {s : State} (hs : s.Inv) (hrun : s.status = .running) (st : Stage) :
    (s.setSlot st .empty).Inv :=
  setSlot_inv hs hrun nofun

/-- A known record may enter a stage. -/
theorem setSlot_entering_inv {s : State} (hs : s.Inv) (hrun : s.status = .running) {r : Record}
    (hknown : r = bubble ∨ r ∈ s.source) (st : Stage) : (s.setSlot st (s.entering r st)).Inv := by
  refine setSlot_inv hs hrun fun r' ce cn f h => ?_
  cases h
  exact slotInv_entering hs hknown st

/-- The pc of a running machine may be any Word. -/
theorem setPc_inv {s : State} (hs : s.Inv) (hrun : s.status = .running) (w : Word) : State.Inv { s with pc := w } :=
  { hs with
    slots := fun st r ce cn f h => slotInv_congr (by rfl) (by rfl) (hs.slots st r ce cn f h)
    drained := by simp [hrun] }

/-- A register write keeps the invariant, the cell behind R0 included. -/
theorem writeReg_inv {s : State} (hs : s.Inv) (a : RegIndex) (v : Word) : (s.writeReg a v).Inv where
  zero_register := (writeReg_cell_zero s a v).trans hs.zero_register
  data_wf := by rw [writeReg_data]; exact hs.data_wf
  admitted := by rw [State.programSize, writeReg_source]; exact hs.admitted
  addresses := by rw [writeReg_source]; exact hs.addresses
  clean := by rw [writeReg_source]; exact hs.clean
  table := by rw [writeReg_config]; exact hs.table
  slots := by
    intro st r ce cn f h
    rw [State.slot, writeReg_slots] at h
    exact slotInv_congr (writeReg_source s a v) (writeReg_config s a v) (hs.slots st r ce cn f h)
  drained := by
    rw [writeReg_status, writeReg_slots, writeReg_pc, State.programSize, writeReg_source]
    exact hs.drained
  halted := by rw [writeReg_status, writeReg_slots]; exact hs.halted

/-- A write inside the data region keeps the invariant. -/
theorem writeData_inv {s : State} (hs : s.Inv) {k : Nat} (hk : k < dataSize) (v : Word) :
    State.Inv { s with data := Memory.write s.data k v } :=
  { hs with
    data_wf := memory_write_wf v hs.data_wf hk
    slots := fun st r ce cn f h => slotInv_congr (by rfl) (by rfl) (hs.slots st r ce cn f h) }

/-- A committed transfer keeps the invariant: the bubble stands in IF. -/
theorem jumpTo_inv {s : State} (hs : s.Inv) (hrun : s.status = .running) (w : Word) : (s.jumpTo w).Inv := by
  have hpc := setPc_inv hs hrun w
  rw [State.jumpTo, squash_eq]
  refine setSlot_inv hpc hrun fun r ce cn f h => ?_
  cases hif : s.slots.ifetch with
  | empty =>
    simp only [hif, Slot.squashed] at h
    cases h
    exact slotInv_entering hpc (.inl rfl) .ifetch
  | occ r' ce' cn' f' =>
    simp only [hif, Slot.squashed] at h
    cases h
    exact slotInv_squashed (hpc.slots .ifetch r' _ _ f' hif)

/-- HALT retiring keeps the invariant: WB is Empty. -/
theorem halt_inv {s : State} (hs : s.Inv) (hrun : s.status = .running) : s.halt.Inv :=
  { setSlot_empty_inv hs hrun .wb with
    slots := fun st r ce cn f h =>
      slotInv_congr (by rfl) (by rfl) ((setSlot_empty_inv hs hrun .wb).slots st r ce cn f h)
    drained := nofun
    halted := fun _ => rfl }

/-- Taking a fault keeps the invariant. -/
theorem takeFault_inv {s : State} (hs : s.Inv) (k : Fault) : (s.takeFault k).Inv :=
  { hs with
    slots := fun st r ce cn f h => slotInv_congr (by rfl) (by rfl) (hs.slots st r ce cn f h)
    drained := nofun
    halted := nofun }

/-! ### The tick -/

/-- Every effect of a record keeps the invariant. -/
theorem effect_inv {s : State} (hs : s.Inv) (hrun : s.status = .running) (r : Record) : (effect r.instr s).Inv := by
  have h := applies_effect r s
  generalize effect r.instr s = t at h
  cases h with
  | write v => exact writeReg_inv hs _ v
  | store _ hin hdata =>
    obtain ⟨-, hbound, -⟩ := inRange_bounds hin
    exact writeData_inv hs (by unfold State.storeIndex; omega) _
  | nothing => exact hs
  | branch => exact jumpTo_inv hs hrun _
  | link => exact jumpTo_inv (writeReg_inv hs _ _) ((writeReg_status _ _ _).trans hrun) _
  | halt => exact halt_inv hs hrun
  | fault k => exact takeFault_inv hs k

/-- A move keeps the invariant. -/
theorem advance_inv {s : State} (hs : s.Inv) (hrun : s.status = .running) {st : Stage} {r : Record} {ce cn : Nat}
    {f : Bool} (hslot : s.slot st = .occ r ce cn f) : (s.advance st r).Inv := by
  cases hdown : nextStage st with
  | none =>
    simp only [State.advance, hdown]
    exact setSlot_empty_inv hs hrun st
  | some down =>
    by_cases he : s.slot down = .empty
    · rw [advance_of_empty r hdown he]
      have hknown := (hs.slots st r ce cn f hslot).known
      exact setSlot_empty_inv (setSlot_entering_inv hs hrun hknown down) hrun st
    · rwa [advance_of_taken r hdown he]

/-- The flag of a ready occupant may be set in the stage its effect is bound to. -/
theorem markFired_inv {s : State} (hs : s.Inv) (hrun : s.status = .running) {st : Stage} {r : Record} {ce cn : Nat}
    {f : Bool} (hslot : s.slot st = .occ r ce cn f) (hready : cn ≤ ce) (hbound : effectStage r.opcode = st) :
    (s.markFired st).Inv := by
  simp only [State.markFired, hslot]
  refine setSlot_inv hs hrun fun r' ce' cn' f' h => ?_
  cases h
  exact slotInv_fired (hs.slots st r ce cn f hslot) hready hbound

/-- Every turn of a running state keeps the invariant. -/
theorem turn_inv (st : Stage) {s : State} (hrun : s.status = .running) (hs : s.Inv) : (turn st s).Inv := by
  rcases turn_cases st hrun with ⟨-, e⟩ | ⟨r, ce, cn, f, hslot, -, -, e⟩ | ⟨r, ce, cn, hslot, hready, hbound, e⟩
  · rwa [e]
  · rw [e]
    exact advance_inv hs hrun hslot
  · have heffect := effect_inv hs hrun r
    rw [e]
    by_cases hend : (effect r.instr s).status = .running
    · have hslot' : (effect r.instr s).slot st = .occ r ce cn false := (effect_slot_bound hbound hend).trans hslot
      rw [afterEffect_of_fired hend hbound]
      exact advance_inv (markFired_inv heffect hend hslot' hready hbound) ((markFired_status _ _).trans hend)
        (markFired_slot_same hslot')
    · rwa [afterEffect_of_ended st r false hend]

/-- The refill keeps the invariant: what it fetches is in the program. -/
theorem refill_inv {s : State} (hs : s.Inv) (hrun : s.status = .running) : s.refill.Inv := by
  unfold State.refill
  split
  · exact hs
  · split
    · exact hs
    next r hfetch =>
      have hknown : r ∈ s.source := List.mem_of_getElem? hfetch
      exact setPc_inv (setSlot_entering_inv hs hrun (.inr hknown) .ifetch) hrun _

/-- An occupied slot at the end of a tick was occupied after the refill, and has counted up. -/
theorem occupied_of_countUp {x : Slot} {r : Record} {ce cn : Nat} {f : Bool} (h : x.countUp = .occ r ce cn f) :
    ∃ ce', x = .occ r ce' cn f ∧ ce = min (ce' + 1) cn := by
  cases x with
  | empty => cases h
  | occ r' ce' cn' f' =>
    cases h
    exact ⟨ce', rfl, rfl⟩

/-- The end of a tick keeps the invariant, and drains the machine only with nothing left to fetch or to run. -/
theorem endTick_inv {s : State} (hs : s.Inv) (hrun : s.status = .running) : s.endTick.Inv where
  zero_register := by simp only [endTick_regs]; exact hs.zero_register
  data_wf := by rw [endTick_data]; exact hs.data_wf
  admitted := by rw [State.programSize, endTick_source]; exact hs.admitted
  addresses := by rw [endTick_source]; exact hs.addresses
  clean := by rw [endTick_source]; exact hs.clean
  table := by rw [endTick_config]; exact hs.table
  slots := by
    intro st r ce cn f h
    rw [endTick_slot] at h
    obtain ⟨ce', hslot, rfl⟩ := occupied_of_countUp h
    exact slotInv_countUp (slotInv_congr (by simp) (by simp) ((refill_inv hs hrun).slots st r ce' cn f hslot))
  drained := by
    intro hdrained
    rcases endTick_status_cases hrun with ⟨-, hall⟩ | ⟨hstill, -⟩
    · exact ⟨hall, pc_outside_of_endTick_allEmpty hall⟩
    · rw [hstill] at hdrained
      cases hdrained
  halted := by
    intro hhalted
    rcases endTick_status_cases hrun with ⟨h, -⟩ | ⟨h, -⟩ <;> rw [h] at hhalted <;> cases hhalted

/-- The walk of a tick keeps the invariant. -/
theorem walked_inv (l : List Stage) {s : State} (hrun : s.status = .running) (hs : s.Inv) : (walked l s).Inv :=
  walked_induction (fun st _ => turn_inv st) l s hrun hs

/-- A tick keeps the invariant. -/
theorem ticked_inv {s : State} (hs : s.Inv) : (ticked s).Inv := by
  by_cases hrun : s.status = .running
  · have hwalk := walked_inv stageOrder hrun hs
    rw [ticked_of_running hrun]
    split
    next hstill => exact endTick_inv hwalk hstill
    next => exact hwalk
  · rwa [ticked_of_not_running hrun]

/-! ### The statements -/

/-- Settles O45: every turn, the refill and the counters keep the invariant. -/
theorem stepKeepsTheInvariant : Obligations.StepKeepsTheInvariant := by
  unfold Obligations.StepKeepsTheInvariant
  intro s t hs hstep
  rw [eq_ticked_of_step hstep]
  exact ticked_inv hs

/-- Settles O46: a loaded program is admitted, stamped and clean. -/
theorem constructionHasTheInvariant : Obligations.ConstructionHasTheInvariant := by
  unfold Obligations.ConstructionHasTheInvariant
  intro haltPair lines p table hload htable
  have hrecord (k : Nat) (r : Record) (hr : p.source[k]? = some r) : r.address = k ∧ r.clean = true := by
    obtain ⟨haddress, hclean, -⟩ := loadedRecordsAreStampedAndClean haltPair lines p hload k r hr
    exact ⟨haddress, hclean⟩
  have hsize : p.source.length ≤ maxProgram := by
    obtain ⟨hle, rs, hrs, rfl⟩ := load_eq_ok.mp hload
    obtain ⟨hlength, -⟩ := records_of_decodeSource hrs
    exact hlength ▸ hle
  refine construct_inv hsize (fun k r hr => (hrecord k r hr).1) (fun r hr => ?_) htable
  obtain ⟨k, hk⟩ := List.getElem?_of_mem hr
  exact (hrecord k r hk).2

/-- Settles O47: reset is the construction from the empty program and the default table. -/
theorem resetHasTheInvariant : Obligations.ResetHasTheInvariant := by
  unfold Obligations.ResetHasTheInvariant
  exact construct_inv (Nat.zero_le _) nofun nofun (by decide)

end Sys2Proof.Machine
end

section
/-! PROOFS. 10_state.md R38: the display texts influence nothing. Every operation but the squash commutes with
forgetting the texts; the squash writes the bubble's own text, so after it the texts are forgotten once more. -/

namespace Sys2Proof.Machine

/-! ### Forgetting -/

@[simp] theorem record_forgetText_forgetText (r : Record) :
    Record.forgetText (Record.forgetText r) = Record.forgetText r := rfl

@[simp] theorem record_forgetText_instr (r : Record) : (Record.forgetText r).instr = r.instr := rfl

@[simp] theorem record_forgetText_opcode (r : Record) : (Record.forgetText r).opcode = r.opcode := rfl

@[simp] theorem slot_forgetText_forgetText (x : Slot) : x.forgetText.forgetText = x.forgetText := by
  cases x <;> rfl

@[simp] theorem forgetText_forgetText (s : State) : s.forgetText.forgetText = s.forgetText := by
  simp [State.forgetText]

/-- Forgetting empties no slot and fills none. -/
theorem slot_forgetText_eq_empty {x : Slot} : x.forgetText = .empty ↔ x = .empty := by
  cases x <;> simp [Slot.forgetText]

/-- The slot of a state without texts. -/
@[simp] theorem forgetText_slot (s : State) (st : Stage) : s.forgetText.slot st = (s.slot st).forgetText := by
  cases st <;> rfl

@[simp] theorem forgetText_pc (s : State) : s.forgetText.pc = s.pc := rfl
@[simp] theorem forgetText_status (s : State) : s.forgetText.status = s.status := rfl
@[simp] theorem forgetText_config (s : State) : s.forgetText.config = s.config := rfl

/-! ### What reads the state sees no text -/

@[simp] theorem forgetText_readReg (s : State) (q : RegIndex) : s.forgetText.readReg q = s.readReg q := rfl

@[simp] theorem forgetText_effectiveAddress (s : State) (b : RegIndex) (i : Int) :
    s.forgetText.effectiveAddress b i = s.effectiveAddress b i := rfl

@[simp] theorem forgetText_registersEqual (s : State) (a b : RegIndex) :
    s.forgetText.registersEqual a b = s.registersEqual a b := rfl

@[simp] theorem forgetText_programSize (s : State) : s.forgetText.programSize = s.programSize := List.length_map _

@[simp] theorem forgetText_outOfRange (s : State) (a : Word) : s.forgetText.outOfRange a = s.outOfRange a := by
  rw [State.outOfRange, forgetText_programSize]
  rfl

@[simp] theorem forgetText_controlAddress (s : State) : s.forgetText.controlAddress = s.controlAddress := by
  have hrr : s.forgetText.slots.rr = s.slots.rr.forgetText := rfl
  unfold State.controlAddress
  rw [hrr]
  cases s.slots.rr <;> rfl

/-- The record that is fetched, without its text. -/
theorem forgetText_fetch (s : State) (p : Word) : s.forgetText.fetch p = (s.fetch p).map Record.forgetText :=
  List.getElem?_map

@[simp] theorem forgetText_wordAt (s : State) (k : Nat) : s.forgetText.wordAt k = s.wordAt k := by
  have hsource : s.forgetText.source[k]? = s.source[k]?.map Record.forgetText := List.getElem?_map
  unfold State.wordAt
  rw [hsource, forgetText_programSize]
  cases s.source[k]? <;> rfl

@[simp] theorem forgetText_memRead (s : State) (a : Word) : s.forgetText.memRead a = s.memRead a := by
  simp [State.memRead]

/-! ### What changes the state commutes with forgetting -/

@[simp] theorem forgetText_setSlot (s : State) (st : Stage) (x : Slot) :
    (s.setSlot st x).forgetText = s.forgetText.setSlot st x.forgetText := by
  cases st <;> rfl

@[simp] theorem forgetText_writeReg (s : State) (a : RegIndex) (v : Word) :
    (s.writeReg a v).forgetText = s.forgetText.writeReg a v := by
  unfold State.writeReg; split <;> rfl

@[simp] theorem forgetText_takeFault (s : State) (k : Fault) :
    (s.takeFault k).forgetText = s.forgetText.takeFault k := rfl

@[simp] theorem forgetText_halt (s : State) : s.halt.forgetText = s.forgetText.halt := rfl

@[simp] theorem forgetText_load (s : State) (a : RegIndex) (addr : Word) :
    (s.load a addr).forgetText = s.forgetText.load a addr := by
  unfold State.load
  rw [forgetText_memRead]
  cases s.memRead addr <;> simp

@[simp] theorem forgetText_store (s : State) (addr v : Word) :
    (s.store addr v).forgetText = s.forgetText.store addr v := by
  rcases memWrite_cases s addr v with ⟨hout, -⟩ | ⟨hin, hk, -⟩ | ⟨hin, hk, -⟩
  · rw [store_of_outOfRange v hout, store_of_outOfRange v (by simpa using hout), forgetText_takeFault]
  · rw [store_of_program v hin hk, store_of_program v (by simpa using hin) (by simpa using hk)]
  · rw [store_of_data v hin hk, store_of_data v (by simpa using hin) (by simpa using hk), forgetText_programSize]
    rfl

@[simp] theorem forgetText_markFired (s : State) (st : Stage) :
    (s.markFired st).forgetText = s.forgetText.markFired st := by
  unfold State.markFired
  rw [forgetText_slot]
  cases s.slot st with
  | empty => rfl
  | occ r ce cn f => exact forgetText_setSlot s st _

@[simp] theorem forgetText_advance (s : State) (st : Stage) (r : Record) :
    (s.advance st r).forgetText = s.forgetText.advance st (Record.forgetText r) := by
  unfold State.advance
  cases nextStage st with
  | none => exact forgetText_setSlot s st .empty
  | some down =>
    simp only [forgetText_slot]
    cases s.slot down with
    | empty => simp only [Slot.forgetText, forgetText_setSlot]; rfl
    | occ r' ce cn f => rfl

theorem forgetText_afterEffect (s : State) (st : Stage) (r : Record) (f : Bool) :
    (s.afterEffect st r f).forgetText = s.forgetText.afterEffect st (Record.forgetText r) f := by
  unfold State.afterEffect
  rw [forgetText_status, record_forgetText_opcode]
  split
  · split <;> simp
  · rfl

theorem forgetText_refill (s : State) : s.refill.forgetText = s.forgetText.refill := by
  have hif : s.forgetText.slots.ifetch = s.slots.ifetch.forgetText := rfl
  unfold State.refill
  rw [hif, forgetText_fetch, forgetText_pc]
  cases s.slots.ifetch with
  | occ r ce cn f => rfl
  | empty => cases s.fetch s.pc <;> rfl

/-- Counting reads no text. -/
theorem slot_forgetText_countUp (x : Slot) : x.countUp.forgetText = x.forgetText.countUp := by
  cases x <;> rfl

/-- A pipeline is empty with or without its texts. -/
theorem forgetText_slots_allEmpty {s : State} : s.forgetText.slots = Slots.allEmpty ↔ s.slots = Slots.allEmpty := by
  have hslots (t : State) : t.slots = Slots.allEmpty ↔ ∀ st, t.slot st = .empty :=
    ⟨fun h st => by rw [State.slot, h, Slots.get_allEmpty],
      fun h => Slots.ext_get fun st => (h st).trans (Slots.get_allEmpty st).symm⟩
  simp only [hslots, forgetText_slot, slot_forgetText_eq_empty]

/-- The state with its counters counted up (44_pipeline.md R158), before the drain test. -/
def State.counted (s : State) : State := { s with slots := s.slots.countUp, cycle := s.cycle + 1 }

theorem forgetText_counted (s : State) : s.counted.forgetText = s.forgetText.counted := by
  simp only [State.counted, State.forgetText, Slots.countUp, slot_forgetText_countUp]

theorem forgetText_endTick (s : State) : s.endTick.forgetText = s.forgetText.endTick := by
  have hcounted := forgetText_counted s.refill
  rw [forgetText_refill] at hcounted
  have hempty : s.forgetText.refill.slots.countUp = Slots.allEmpty ↔ s.refill.slots.countUp = Slots.allEmpty :=
    (hcounted ▸ forgetText_slots_allEmpty (s := s.refill.counted) :)
  unfold State.endTick
  dsimp only
  by_cases h : s.refill.slots.countUp = Slots.allEmpty
  · rw [if_pos h, if_pos (hempty.mpr h)]
    exact congrArg (fun u : State => { u with status := .drained }) hcounted
  · rw [if_neg h, if_neg (mt hempty.mp h)]
    exact hcounted

/-! ### What a transfer, a turn and a tick leave, texts forgotten -/

/-- An operation that leaves the same state, texts forgotten, whether the texts were there or not. -/
def TextBlind (op : State → State) : Prop := ∀ s, (op s.forgetText).forgetText = (op s).forgetText

/-- Such an operation keeps two states that differ in texts alone alike. -/
theorem textBlind_congr {op : State → State} (h : TextBlind op) {s s' : State} (hs : s.forgetText = s'.forgetText) :
    (op s).forgetText = (op s').forgetText :=
  calc (op s).forgetText
    _ = (op s.forgetText).forgetText := (h s).symm
    _ = (op s').forgetText := by rw [hs, h s']

/-- Whether it ends the tick depends on no text. -/
theorem textBlind_status {op : State → State} (h : TextBlind op) (s : State) :
    (op s.forgetText).status = (op s).status := by
  rw [← forgetText_status, h s, forgetText_status]

/-- A squashed IF holds the bubble, whatever text stood there. -/
theorem slot_forgetText_squashed (x : Slot) (n : Nat) :
    (x.forgetText.squashed n).forgetText = (x.squashed n).forgetText := by
  cases x <;> rfl

theorem squash_textBlind : TextBlind State.squash := by
  intro s
  have hif : s.forgetText.slots.ifetch = s.slots.ifetch.forgetText := rfl
  rw [squash_eq, squash_eq, forgetText_setSlot, forgetText_setSlot, hif, slot_forgetText_squashed,
    forgetText_forgetText]
  rfl

theorem jumpTo_textBlind (w : Word) : TextBlind (State.jumpTo · w) :=
  fun s => squash_textBlind { s with pc := w }

theorem jumpAndLink_textBlind (a b : RegIndex) : TextBlind (State.jumpAndLink · a b) := by
  intro s
  dsimp only
  rw [jumpAndLink_eq, jumpAndLink_eq, ← forgetText_writeReg, forgetText_controlAddress, forgetText_readReg]
  exact jumpTo_textBlind _ _

/-- No effect reads a text. -/
theorem effect_textBlind (i : Instr) : TextBlind (effect i) := by
  intro s
  cases i with
  | beq a b n =>
    simp only [effect, forgetText_registersEqual, forgetText_controlAddress]
    split
    · exact jumpTo_textBlind _ s
    · simp
  | jalr a b => exact jumpAndLink_textBlind a b s
  | jalr00 =>
    by_cases h : s.config.jalr00IsHalt = true
    · simp [effect, h]
    · simpa [effect, h] using jumpAndLink_textBlind 0 0 s
  | add a b c | nop => simp [effect, State.addRegisters]
  | addi a b n | lli a n => simp [effect, State.addImmediate]
  | _ => simp [effect]

/-- No turn reads a text. -/
theorem turn_textBlind (st : Stage) : TextBlind (turn st) := by
  intro s
  unfold turn
  rw [forgetText_slot]
  cases s.slot st with
  | empty => simp [Slot.forgetText]
  | occ r ce cn f =>
    have hbound : f = false ∧ effectStage (Record.forgetText r).opcode = st ↔ f = false ∧ effectStage r.opcode = st :=
      Iff.rfl
    simp only [Slot.forgetText, readyTurn, hbound, record_forgetText_instr]
    split
    · split
      · simp only [forgetText_afterEffect, effect_textBlind r.instr s, record_forgetText_forgetText]
      · simp only [forgetText_afterEffect, forgetText_forgetText, record_forgetText_forgetText]
    · simp

/-- No walk reads a text. -/
theorem walked_textBlind (l : List Stage) : TextBlind (walked l) := by
  induction l with
  | nil => exact forgetText_forgetText
  | cons st rest ih =>
    intro s
    simp only [walked, textBlind_status (turn_textBlind st)]
    split
    · exact textBlind_congr ih (turn_textBlind st s)
    · exact turn_textBlind st s

/-- No tick reads a text. -/
theorem ticked_textBlind : TextBlind ticked := by
  intro s
  have hwalk := walked_textBlind stageOrder s
  unfold ticked
  rw [textBlind_status (walked_textBlind stageOrder), forgetText_status]
  split
  · split
    · rw [forgetText_endTick, hwalk, forgetText_endTick]
    · exact hwalk
  · exact forgetText_forgetText s

/-- Settles O49: no operation of a tick reads a text. -/
theorem displayTextsInfluenceNothing : Obligations.DisplayTextsInfluenceNothing := by
  unfold Obligations.DisplayTextsInfluenceNothing
  intro s s' t t' hs ht ht'
  rw [eq_ticked_of_step ht, eq_ticked_of_step ht']
  exact textBlind_congr ticked_textBlind hs

end Sys2Proof.Machine
end

section
/-! PROOFS. 00_scope.md R6, 20_memory.md §1, §4 and log entry 3: the congruent Word, a write read back through the
unified address space, and the canonical data regions. -/

namespace Sys2Proof

/-! ### Wrapping (00_scope.md R6) -/

/-- A wrapped integer differs from the integer by a multiple of 2^16. -/
theorem wrap16_congruent (n : Int) : ∃ k : Int, (wrap16 n).toInt = n + 65536 * k := by
  obtain ⟨k, hk⟩ : (65536 : Int) ∣ n.bmod 65536 - n := Int.dvd_bmod_sub_self
  refine ⟨k, ?_⟩
  have hwrap : (wrap16 n).toInt = n.bmod 65536 := BitVec.toInt_ofInt n
  omega

/-- A multiple of 2^16 wraps to 0. -/
theorem wrap16_multiple (k : Int) : wrap16 (65536 * k) = 0 := by
  have hbase : wrap16 65536 = 0 := by decide
  rw [wrap16, BitVec.ofInt_mul]
  exact (congrArg (· * BitVec.ofInt 16 k) hbase).trans BitVec.zero_mul

/-- Settles O10: a Word wraps to itself, and wrapping is additive. -/
theorem wrapIsTheCongruentWord : Obligations.WrapIsTheCongruentWord := by
  unfold Obligations.WrapIsTheCongruentWord
  refine fun n => ⟨wrap16_congruent n, fun w ⟨k, hw⟩ => ?_⟩
  calc w = wrap16 w.toInt := (wrap16_toInt w).symm
    _ = wrap16 n + wrap16 (65536 * k) := by rw [hw, wrap16_add]
    _ = wrap16 n := by rw [wrap16_multiple]; exact BitVec.add_zero _

end Sys2Proof

namespace Sys2Proof.Machine

/-! ### A write, read back (20_memory.md §1, §4) -/

/-- Two states with the same program refer to the same addresses. -/
theorem outOfRange_congr {s t : State} (h : t.source = s.source) (a : Word) : t.outOfRange a = s.outOfRange a := by
  rw [State.outOfRange, State.outOfRange, State.programSize, State.programSize, h]

/-- The word at an address depends on the program, and from N on on the data word there. -/
theorem wordAt_congr {s t : State} {k : Nat} (hsource : t.source = s.source)
    (hdata : s.programSize ≤ k → Memory.read t.data (k - s.programSize) = Memory.read s.data (k - s.programSize)) :
    t.wordAt k = s.wordAt k := by
  have hsize : t.programSize = s.programSize := congrArg List.length hsource
  rcases Nat.lt_or_ge k s.programSize with hk | hk
  · obtain ⟨r, hr, hs⟩ := wordAt_of_program hk
    obtain ⟨r', hr', ht⟩ := wordAt_of_program (hsize ▸ hk)
    rw [hsource, hr] at hr'
    rw [hs, ht, Option.some.inj hr']
  · rw [wordAt_of_data hk, wordAt_of_data (hsize ▸ hk), hsize, hdata hk]

/-- Two readings agree if in range the words at the address do. -/
theorem memRead_congr {s t : State} {a : Word} (hsource : t.source = s.source)
    (hword : s.outOfRange a = false → t.wordAt a.toNat = s.wordAt a.toNat) : t.memRead a = s.memRead a := by
  cases h : s.outOfRange a with
  | true => rw [memRead_of_outOfRange h, memRead_of_outOfRange ((outOfRange_congr hsource a).trans h)]
  | false => rw [memRead_of_inRange h, memRead_of_inRange ((outOfRange_congr hsource a).trans h), hword h]

/-- Settles O18: below N nothing is written; from N on one data word, and two addresses have different words. -/
theorem writeThenReadEveryAddress : Obligations.WriteThenReadEveryAddress := by
  unfold Obligations.WriteThenReadEveryAddress
  intro s t a v h
  rcases memWrite_cases s a v with ⟨-, e⟩ | ⟨hin, hbelow, e⟩ | ⟨hin, hfrom, e⟩ <;> rw [e] at h <;> cases h <;>
    obtain ⟨-, -, hcast⟩ := inRange_bounds hin
  · exact ⟨rfl, fun _ _ => rfl, by rw [if_pos (by omega)]⟩
  · refine ⟨rfl, fun b hb => ?other, ?written⟩
    case other =>
      refine memRead_congr rfl fun _ => wordAt_congr rfl fun hk => memory_read_write_ne s.data v ?_
      have hne : b.toNat ≠ a.toNat := fun e => hb (BitVec.eq_of_toNat_eq e)
      omega
    case written =>
      rw [if_neg (by omega)]
      refine (memRead_of_inRange ((outOfRange_congr (by rfl) a).trans hin)).trans (congrArg some ?_)
      refine (wordAt_of_data (by exact hfrom)).trans ?_
      exact memory_read_write_same s.data _ v

/-! ### Canonical regions (log entry 3) -/

/-- An index that is not listed reads as 0. -/
theorem memory_read_of_not_listed {m : Memory} {k : Nat} (h : ∀ c ∈ m, c.1 ≠ k) : Memory.read m k = 0 := by
  induction m with
  | nil => rfl
  | cons c m ih =>
    obtain ⟨hc, hm⟩ := List.forall_mem_cons.mp h
    rw [memory_read_cons, if_neg hc, ih hm]

/-- A listed word is read, if the indices rise. -/
theorem memory_read_of_listed {m : Memory} {c : DataCell} (hm : m.Pairwise fun c d => c.1 < d.1) (h : c ∈ m) :
    Memory.read m c.1 = c.2 := by
  induction m with
  | nil => cases h
  | cons d m ih =>
    obtain ⟨hd, hm⟩ := List.pairwise_cons.mp hm
    rcases List.mem_cons.mp h with rfl | h
    · rw [memory_read_cons, if_pos rfl]
    · rw [memory_read_cons, if_neg (hd c h).ne, ih hm h]

/-- A canonical region lists exactly its words that are not 0. -/
theorem memory_mem_iff {m : Memory} (h : Memory.wf m = true) (k : Nat) (w : Word) :
    (k, w) ∈ m ↔ k < dataSize ∧ w ≠ 0 ∧ Memory.read m k = w := by
  obtain ⟨hrising, hcells⟩ := (memory_wf_iff m).mp h
  constructor
  · intro hmem
    exact ⟨(hcells _ hmem).1, (hcells _ hmem).2, memory_read_of_listed hrising hmem⟩
  · rintro ⟨-, hw, hread⟩
    by_contra hnot
    refine hw (hread.symm.trans (memory_read_of_not_listed fun c hc hck => ?_))
    have hlisted := memory_read_of_listed hrising hc
    rw [hck, hread] at hlisted
    exact hnot (by rwa [← hck, hlisted])

/-- Settles O19: regions that read the same list the same words, in the one rising order. -/
theorem canonicalRegionsAreDeterminedByTheirWords : Obligations.CanonicalRegionsAreDeterminedByTheirWords := by
  unfold Obligations.CanonicalRegionsAreDeterminedByTheirWords
  intro m m' hm hm' hread
  obtain ⟨hrising, -⟩ := (memory_wf_iff m).mp hm
  obtain ⟨hrising', -⟩ := (memory_wf_iff m').mp hm'
  have nodup {l : Memory} (hl : l.Pairwise fun c d => c.1 < d.1) : l.Nodup :=
    hl.imp fun h e => absurd (e ▸ h) (lt_irrefl _)
  have hmem (c : DataCell) : c ∈ m ↔ c ∈ m' := by
    rw [memory_mem_iff hm c.1 c.2, memory_mem_iff hm' c.1 c.2]
    exact and_congr_right fun hk => by rw [hread c.1 hk]
  have hperm : m.Perm m' := (List.perm_ext_iff_of_nodup (nodup hrising) (nodup hrising')).mpr hmem
  exact hperm.eq_of_pairwise (fun c d _ _ hcd hdc => absurd hcd hdc.asymm) hrising hrising'

end Sys2Proof.Machine
end

section
/-! PROOFS. 43_halt_fill.md R132, 44_pipeline.md R143, R146 to R148, R167: one turn in each case, a decoded line's turn
in its tick, and the oldest occupant. -/

namespace Sys2Proof.Machine

/-! ### The effect of a line's record -/

/-- The record of an instruction has the instruction's effect, under the configuration it was decoded for. -/
theorem effect_record (i : Instr) (addr : Nat) (text : Line) (s : State) :
    effect (i.record s.config.jalr00IsHalt addr text).instr s = effect i s := by
  cases i with
  | jalr00 => cases h : s.config.jalr00IsHalt <;> simp [Instr.record, recordHalt, recordRRI, Record.instr, effect, h]
  | _ => rfl

/-- No walk changes the configuration. -/
theorem walked_config (l : List Stage) {s : State} (hrun : s.status = .running) : (walked l s).config = s.config :=
  walked_keeps State.config (fun st _ _ h => turn_config st h) hrun

/-- The walk that `walk` answers. -/
theorem walked_of_walk {l : List Stage} {s u : State} (h : walk l s = .next u) : walked l s = u :=
  Host.Outcome.next.inj ((walk_eq l s).symm.trans h)

/-! ### The stages before and after a stage -/

/-- The order of the stages cut at each stage: those before it, itself, and those after it (44_pipeline.md R145). -/
def stageCuts : List (List Stage × Stage × List Stage) :=
  [([], .wb, [.me, .ex, .rr, .ifetch]), ([.wb], .me, [.ex, .rr, .ifetch]), ([.wb, .me], .ex, [.rr, .ifetch]),
    ([.wb, .me, .ex], .rr, [.ifetch]), ([.wb, .me, .ex, .rr], .ifetch, [])]

/-- There is no other cut. -/
theorem stageOrder_cut {older younger : List Stage} {st : Stage} (h : stageOrder = older ++ st :: younger) :
    (older, st, younger) ∈ stageCuts := by
  have hlength : older.length < 5 := by
    have := congrArg List.length h
    simp [stageOrder] at this
    omega
  have htake : older = stageOrder.take older.length := by rw [h, List.take_left]
  have hdrop : st :: younger = stageOrder.drop older.length := by rw [h, List.drop_left]
  generalize older.length = n at *
  interval_cases n <;> cases hdrop <;> rw [htake] <;> decide

/-- The next stage is older. -/
theorem nextStage_mem_older {older younger : List Stage} {st down : Stage} (h : stageOrder = older ++ st :: younger)
    (hdown : nextStage st = some down) : down ∈ older := by
  have hcuts : ∀ cut ∈ stageCuts, ∀ down ∈ nextStage cut.2.1, down ∈ cut.1 := by decide
  exact hcuts _ (stageOrder_cut h) down hdown

/-- A younger stage is another one, and RR is younger than no IF. -/
theorem younger_ne {older younger : List Stage} {st : Stage} (h : stageOrder = older ++ st :: younger) :
    ∀ su ∈ younger, st ≠ su ∧ (st = .ifetch → su ≠ .rr) := by
  have hcuts : ∀ cut ∈ stageCuts, ∀ su ∈ cut.2.2, cut.2.1 ≠ su ∧ (cut.2.1 = .ifetch → su ≠ .rr) := by decide
  exact hcuts _ (stageOrder_cut h)

/-- An older stage is another one, not IF, and none of the younger ones. -/
theorem older_ne {older younger : List Stage} {st su : Stage} (h : stageOrder = older ++ st :: younger)
    (hsu : su ∈ older) : su ≠ st ∧ su ≠ .ifetch ∧ su ∉ younger := by
  have hcuts : ∀ cut ∈ stageCuts, ∀ su ∈ cut.1, su ≠ cut.2.1 ∧ su ≠ .ifetch ∧ su ∉ cut.2.2 := by decide
  exact hcuts _ (stageOrder_cut h) su hsu

/-- WB comes first. -/
theorem older_of_wb {older younger : List Stage} (h : stageOrder = older ++ .wb :: younger) : older = [] := by
  have hcuts : ∀ cut ∈ stageCuts, cut.2.1 = .wb → cut.1 = [] := by decide
  exact hcuts _ (stageOrder_cut h) rfl

/-- Before RR come WB, ME and EX. -/
theorem older_of_rr {older younger : List Stage} (h : stageOrder = older ++ .rr :: younger) :
    older = [.wb, .me, .ex] := by
  have hcuts : ∀ cut ∈ stageCuts, cut.2.1 = .rr → cut.1 = [.wb, .me, .ex] := by decide
  exact hcuts _ (stageOrder_cut h) rfl

/-! ### Slots that the walk and the refill leave -/

/-- The turns of slots that are empty or not ready do nothing. -/
theorem walked_of_notReady {l : List Stage} {s : State} (hrun : s.status = .running)
    (h : ∀ st ∈ l, ∀ r ce cn f, s.slot st = .occ r ce cn f → ce < cn) : walked l s = s := by
  induction l with
  | nil => rfl
  | cons st rest ih =>
    obtain ⟨hst, hrest⟩ := List.forall_mem_cons.mp h
    have hturn : turn st s = s := turn_notReady hst
    rw [walked_cons_running (by rwa [hturn]), hturn, ih hrest]

/-- The turns of empty slots do nothing. -/
theorem walked_of_empty {l : List Stage} {s : State} (hrun : s.status = .running) (h : ∀ st ∈ l, s.slot st = .empty) :
    walked l s = s :=
  walked_of_notReady hrun fun st hst r ce cn f hocc => by simp [h st hst] at hocc

/-- A taken slot is left by the turns of other stages, but IF not by that of RR. -/
theorem walked_slot_of_taken {l : List Stage} {su : Stage} (hl : ∀ st ∈ l, su ≠ st ∧ (su = .ifetch → st ≠ .rr))
    {s : State} (hrun : s.status = .running) (htaken : s.slot su ≠ .empty) : (walked l s).slot su = s.slot su := by
  induction l generalizing s with
  | nil => rfl
  | cons st rest ih =>
    obtain ⟨⟨hne, hif⟩, hrest⟩ := List.forall_mem_cons.mp hl
    have hst : (turn st s).slot su = s.slot su := turn_slot_ne hrun hne (fun _ => htaken) hif
    by_cases hstill : (turn st s).status = .running
    · rw [walked_cons_running hstill, ih hrest hstill (by rwa [hst]), hst]
    · rw [walked_cons_ended hstill, hst]

/-- The refill fills IF alone. -/
theorem refill_slot_ne (s : State) {su : Stage} (h : su ≠ .ifetch) : s.refill.slot su = s.slot su := by
  unfold State.refill
  split
  · rfl
  · split
    · rfl
    · exact Slots.get_put_ne _ _ h

/-- The refill leaves a taken slot. -/
theorem refill_slot_of_taken {s : State} {su : Stage} {r : Record} {ce cn : Nat} {f : Bool}
    (h : s.slot su = .occ r ce cn f) : s.refill.slot su = .occ r ce cn f := by
  by_cases hsu : su = .ifetch
  · subst hsu
    rwa [refill_of_occupied h]
  · rwa [refill_slot_ne s hsu]

/-- A taken slot counts up at the end of the tick. -/
theorem endTick_slot_of_taken {s : State} {su : Stage} {r : Record} {ce cn : Nat} {f : Bool}
    (h : s.slot su = .occ r ce cn f) : s.endTick.slot su = .occ r (min (ce + 1) cn) cn f := by
  rw [endTick_slot, refill_slot_of_taken h]
  rfl

/-- A record that has entered a slot in the tick counts 1 at its end. -/
theorem endTick_slot_of_entered {s u : State} {su : Stage} {r : Record} (htable : u.config.latency.positive = true)
    (h : s.slot su = u.entering r su) : s.endTick.slot su = .occ r 1 (u.config.latency.entry r.opcode su) false := by
  have hone : min (0 + 1) (u.latencyOf r.opcode su) = 1 := Nat.min_eq_left (latency_pos htable r.opcode su)
  rw [endTick_slot_of_taken h, hone]
  rfl

/-- A tick that leaves the machine running has run through its walk. -/
theorem ticked_eq_endTick {s : State} (hrun : s.status = .running) (hstill : (ticked s).status = .running) :
    (walked stageOrder s).status = .running ∧ ticked s = (walked stageOrder s).endTick := by
  by_cases h : (walked stageOrder s).status = .running
  · exact ⟨h, by rw [ticked_of_running hrun, if_pos h]⟩
  · rw [ticked_of_running hrun, if_neg h] at hstill
    exact absurd hstill h

/-! ### One turn -/

/-- What enters a stage depends on the configuration alone. -/
theorem entering_congr {s t : State} (h : t.config = s.config) (r : Record) (st : Stage) :
    t.entering r st = s.entering r st := by
  simp only [State.entering, State.latencyOf, h]

/-- No stage is followed by IF. -/
theorem nextStage_ne_ifetch {st down : Stage} (h : nextStage st = some down) : down ≠ .ifetch := by
  rintro rfl
  cases st <;> cases h

/-- An effect that leaves the machine running leaves the next slot. -/
theorem effect_slot_next {r : Record} {st down : Stage} {s : State} (hdown : nextStage st = some down)
    (hrun : (effect r.instr s).status = .running) : (effect r.instr s).slot down = s.slot down := by
  refine effect_slot s (fun h => absurd h (nextStage_ne_ifetch hdown)) fun _ hop => ?_
  rw [instr_of_opcode_halt hop] at hrun
  cases hrun

/-- The turn of an occupant that fires and whose next slot is empty: its effect, and the move there. -/
theorem turn_fires_into_empty {s : State} {st down : Stage} {r : Record} {ce cn : Nat}
    (hdown : nextStage st = some down) (hslot : s.slot st = .occ r ce cn false) (hready : cn ≤ ce)
    (hbound : effectStage r.opcode = st) (hempty : s.slot down = .empty)
    (hstill : (effect r.instr s).status = .running) :
    turn st s = { effect r.instr s with slots := (turn st s).slots } ∧ (turn st s).slot st = .empty ∧
      (turn st s).slot down = s.entering r down ∧
      ∀ su, su ≠ st → su ≠ down → (turn st s).slot su = (effect r.instr s).slot su := by
  have hturn : turn st s = ((effect r.instr s).markFired st).advance st r := by
    rw [turn_fires hslot hready hbound, afterEffect_of_fired hstill hbound]
  have hdownEmpty : ((effect r.instr s).markFired st).slot down = .empty := by
    rw [markFired_slot_ne _ (nextStage_ne hdown), effect_slot_next hdown hstill, hempty]
  have hconfig : ((effect r.instr s).markFired st).config = s.config :=
    (markFired_config _ _).trans (effect_fixed r s).2
  obtain ⟨hleft, hentered⟩ := advance_slot_moved r hdown hdownEmpty
  rw [hturn]
  refine ⟨?frame, hleft, hentered.trans (entering_congr hconfig r down), fun su hst hsu => ?other⟩
  case frame => rw [advance_eq, markFired_eq]
  case other =>
    have hnext : nextStage st ≠ some su := fun h => hsu (Option.some.inj (h.symm.trans hdown))
    rw [advance_slot_ne r hst (absurd · hnext), markFired_slot_ne _ hst]

/-- A ready occupant whose next slot is empty moves there, its effect applied if it is bound here and has not fired, and
unless that ends the tick. -/
theorem turn_enters_next {s : State} {st down : Stage} {r : Record} {ce cn : Nat} {f : Bool}
    (hrun : s.status = .running) (hdown : nextStage st = some down) (hslot : s.slot st = .occ r ce cn f)
    (hready : cn ≤ ce) (hempty : s.slot down = .empty) (hstill : (turn st s).status = .running) :
    (turn st s).slot down = s.entering r down := by
  by_cases hb : f = true ∨ effectStage r.opcode ≠ st
  · rw [turn_moves hslot hready hb hrun]
    exact (advance_slot_moved r hdown hempty).2
  · simp only [not_or, Bool.not_eq_true, ne_eq, not_not] at hb
    obtain ⟨rfl, hbound⟩ := hb
    have hend : (effect r.instr s).status = .running := by
      rwa [turn_fires hslot hready hbound, afterEffect_status] at hstill
    obtain ⟨-, -, hentered, -⟩ := turn_fires_into_empty hdown hslot hready hbound hempty hend
    exact hentered

/-! ### The statements -/

/-- Settles O27: a FILL's effect takes the fault, and a fault in WB is the state after the tick. -/
theorem fillEndsTheTickFaulted : Obligations.FillEndsTheTickFaulted := by
  unfold Obligations.FillEndsTheTickFaulted
  refine ⟨rfl, rfl, fun _ _ _ _ => rfl, fun v s => exec_eq_effect (.fill v) s, fun s r hrun hready hop => ?_⟩
  exact step_of_wb_fault hrun hready (by rw [hop]; rfl) (effect_of_fill hop s)

/-- Settles O30: every operation of the tick answers a state. -/
theorem stepAnswersANextState : Obligations.StepAnswersANextState := by
  unfold Obligations.StepAnswersANextState
  exact fun s => ⟨ticked s, step_eq s⟩

/-- Settles O31: the walk is cut at the stage, whose turn fires the effect of the line's record. -/
theorem stepRunsTheDecodedInstruction : Obligations.StepRunsTheDecodedInstruction := by
  unfold Obligations.StepRunsTheDecodedInstruction
  intro l i addr r s u st before after ce cn hdecode hrecord hrun horder hwalk hstill hslot hready hbound
  have hbefore : walked before s = u := walked_of_walk hwalk
  have heffect : effect r.instr u = effect i u := by
    rw [decodeRecord_of_decodeLine hdecode] at hrecord
    obtain rfl := Except.ok.inj hrecord
    have hconfig : u.config = s.config := hbefore ▸ walked_config before hrun
    rw [← hconfig, effect_record]
  have hturn : turn st u = (effect i u).afterEffect st r false := by rw [turn_fires hslot hready hbound, heffect]
  refine ⟨effect i u, exec_eq_effect i u, ?_⟩
  rw [step, tick, if_pos hrun, walk_eq, horder, walked_append _ _ hrun, hbefore, if_pos hstill, ← hturn, walk_eq,
    walked]
  split <;> rfl

/-- Settles O35: the turn's own condition. -/
theorem unreadySlotsDoNothing : Obligations.UnreadySlotsDoNothing := by
  unfold Obligations.UnreadySlotsDoNothing
  intro s st h
  rw [processStage_eq, turn_notReady h]

/-- Settles O36: with the next slot taken, the move after the effect does nothing and the flag stays; with the flag set
there is only the move. -/
theorem effectsFireOnce : Obligations.EffectsFireOnce := by
  unfold Obligations.EffectsFireOnce
  refine fun s st down r ce cn hrun hready hdown => ⟨fun r' ce' cn' f' v hslot hbound htaken hexec hstill => ?fires,
    fun hslot => ?moves⟩
  case fires =>
    obtain rfl := effect_of_exec hexec
    have hslot' : (effect r.instr s).slot st = .occ r ce cn false := (effect_slot_bound hbound hstill).trans hslot
    have htaken' : ((effect r.instr s).markFired st).slot down ≠ .empty := by
      rw [markFired_slot_ne _ (nextStage_ne hdown), effect_slot_next hdown hstill, htaken]
      nofun
    refine ⟨(effect r.instr s).markFired st, ?_, markFired_eq _ st, markFired_slot_same hslot',
      fun su hsu => markFired_slot_ne _ hsu⟩
    rw [processStage_eq, turn_fires hslot hready hbound, afterEffect_of_fired hstill hbound,
      advance_of_taken r hdown htaken']
  case moves =>
    refine ⟨s.advance st r, ?_, advance_eq s st r, fun su hst hsu => ?_⟩
    · rw [processStage_eq, turn_moves hslot hready (.inl rfl) hrun]
    · exact advance_slot_ne r hst fun h => absurd (Option.some.inj (hdown.symm.trans h)).symm hsu

/-- Settles O37: such a turn is the move alone. -/
theorem readyOccupantsAdvanceOneStage : Obligations.ReadyOccupantsAdvanceOneStage := by
  unfold Obligations.ReadyOccupantsAdvanceOneStage
  intro s st r ce cn f hrun hslot hready hb
  refine ⟨s.advance st r, ?_, advance_eq s st r, ?out, fun down hdown => ⟨fun hempty => ?enters, fun htaken => ?stays⟩⟩
  · rw [processStage_eq, turn_moves hslot hready hb hrun]
  case out =>
    rintro rfl
    rw [advance_wb]
    exact ⟨rfl, fun su hsu => Slots.get_put_ne _ _ hsu⟩
  case enters =>
    obtain ⟨hleft, hentered⟩ := advance_slot_moved r hdown hempty
    refine ⟨hleft, hentered, fun su hst hsu => advance_slot_ne r hst fun h => ?_⟩
    exact absurd (Option.some.inj (hdown.symm.trans h)).symm hsu
  case stays => exact advance_of_taken r hdown htaken

/-- Settles O38: the turns before do nothing, the turn itself waits or enters the empty next slot, and neither the turns
after nor the refill touch a taken slot, which then counts up. -/
theorem oldestOccupantIsNeverBlocked : Obligations.OldestOccupantIsNeverBlocked := by
  unfold Obligations.OldestOccupantIsNeverBlocked
  intro s t st down older younger r ce cn f hinv hrun hstep hstill hdown horder holder hslot
  rw [eq_ticked_of_step hstep] at hstill ⊢
  obtain ⟨hwalk, htick⟩ := ticked_eq_endTick hrun hstill
  rw [horder, walked_append _ _ hrun, walked_of_empty hrun holder, if_pos hrun] at hwalk htick
  have hturn : (turn st s).status = .running := by
    by_contra h
    rw [walked_cons_ended h] at hwalk
    exact h hwalk
  rw [walked_cons_running hturn] at htick
  rw [htick]
  refine ⟨fun hwaiting => ?waits, fun hready => ?enters⟩
  case waits =>
    have hturn' : turn st s = s := turn_notReady fun r' ce' cn' f' h => by
      rw [hslot] at h
      cases h
      exact hwaiting
    have hleft : (walked younger s).slot st = .occ r ce cn f := by
      rw [walked_slot_of_taken (younger_ne horder) hrun (by rw [hslot]; nofun), hslot]
    rw [hturn', endTick_slot_of_taken hleft, Nat.min_eq_left hwaiting]
  case enters =>
    have hmem : down ∈ older := nextStage_mem_older horder hdown
    have hentered := turn_enters_next hrun hdown hslot hready (holder down hmem) hturn
    obtain ⟨-, hif, hnot⟩ := older_ne horder hmem
    have hyounger : ∀ su ∈ younger, down ≠ su ∧ (down = .ifetch → su ≠ .rr) :=
      fun su hsu => ⟨fun h => hnot (h ▸ hsu), fun h => absurd h hif⟩
    have hleft := (walked_slot_of_taken hyounger hturn (by rw [hentered]; nofun)).trans hentered
    exact endTick_slot_of_entered hinv.table hleft

end Sys2Proof.Machine
end

section
/-! PROOFS. 10_state.md R22, R23, R32, R33, 20_memory.md §1, R53: what a step changes of the registers, the pc, the data
region, the program and the configuration, and on whose account. Whatever the walk changes of these, one effect in it
changes. -/

namespace Sys2Proof.Machine

/-! ### On whose account an effect changes what -/

/-- A register that reads differently after an effect is the `regA` of a writer at WB or of a JALR. -/
theorem writer_of_effect_readReg_ne {r : Record} {s : State} {q : RegIndex}
    (h : (effect r.instr s).readReg q ≠ s.readReg q) :
    (writesAtWb r.opcode = true ∨ r.opcode = .jalr) ∧ r.regA = q := by
  have happlies := applies_effect r s
  generalize effect r.instr s = t at h happlies
  have written (v : Word) (hne : (s.writeReg r.regA v).readReg q ≠ s.readReg q) : r.regA = q := by
    by_contra hq
    exact hne (readReg_writeReg_ne s v (Ne.symm hq))
  cases happlies with
  | write v hop => exact ⟨.inl hop, written v h⟩
  | link hop =>
    rw [jumpAndLink_eq, jumpTo_readReg] at h
    exact ⟨.inr hop, written _ h⟩
  | branch => exact absurd (jumpTo_readReg s _ q) h
  | store | nothing | halt | fault => exact absurd rfl h

/-- A pc that an effect moves is moved by a BEQ or a JALR. -/
theorem control_of_effect_pc_ne {r : Record} {s : State} (h : (effect r.instr s).pc ≠ s.pc) :
    r.opcode = .beq ∨ r.opcode = .jalr := by
  have happlies := applies_effect r s
  generalize effect r.instr s = t at h happlies
  cases happlies with
  | branch hop => exact .inl hop
  | link hop => exact .inr hop
  | write v => exact absurd (writeReg_pc s _ v) h
  | store | nothing | halt | fault => exact absurd rfl h

/-- A data region that an effect changes is changed by a store at its effective address. -/
theorem store_of_effect_data_ne {r : Record} {s : State} (h : (effect r.instr s).data ≠ s.data) :
    r.opcode = .sw ∧ s.outOfRange (s.effectiveAddress r.regB r.sImmed) = false ∧
      s.programSize ≤ (s.effectiveAddress r.regB r.sImmed).toNat ∧
      (effect r.instr s).data = Memory.write s.data (s.storeIndex r) (s.readReg r.regA) := by
  have happlies := applies_effect r s
  generalize effect r.instr s = t at h happlies
  cases happlies with
  | store hop hin hdata => exact ⟨hop, hin, hdata, rfl⟩
  | write v => exact absurd (writeReg_data s _ v) h
  | branch => exact absurd (jumpTo_data s _) h
  | link => exact absurd (by simp [jumpAndLink_eq]) h
  | nothing | halt | fault => exact absurd rfl h

/-- Only the turn of ME changes the data region. -/
theorem turn_data {st : Stage} (hst : st ≠ .me) {s : State} (hrun : s.status = .running) :
    (turn st s).data = s.data := by
  rcases turn_offSlots_cases State.data (fun _ _ => rfl) st hrun with e | ⟨r, -, hbound, e⟩
  · exact e
  · rw [e]
    by_contra hne
    obtain ⟨hop, -⟩ := store_of_effect_data_ne hne
    exact hst (by rw [← hbound, hop]; rfl)

/-! ### The stage of a change -/

/-- What the walk changes, off the slots, the effect of one ready occupant changes. -/
theorem exists_effect_of_walked_ne {α : Type} (g : State → α) (hg : ∀ s x, g { s with slots := x } = g s) {s : State}
    (hrun : s.status = .running) (h : g (walked stageOrder s) ≠ g s) :
    ∃ older younger r u, stageOrder = older ++ effectStage r.opcode :: younger ∧ u = walked older s ∧
      ReadyUnfired (u.slot (effectStage r.opcode)) r ∧ g (effect r.instr u) ≠ g u := by
  obtain ⟨older, st, younger, horder, hstill, hne⟩ := exists_turn_of_walked_ne g hrun h
  rcases turn_offSlots_cases g hg st hstill with e | ⟨r, hready, rfl, e⟩
  · exact absurd e hne
  · exact ⟨older, younger, r, _, horder, rfl, hready, e ▸ hne⟩

/-- A register that reads differently after the walk. -/
theorem writer_of_walked_readReg_ne {s : State} {q : RegIndex} (hrun : s.status = .running)
    (h : (walked stageOrder s).readReg q ≠ s.readReg q) :
    (∃ r, ReadyUnfired s.slots.wb r ∧ writesAtWb r.opcode = true ∧ r.regA = q) ∨
    (∃ r, ReadyUnfired s.slots.rr r ∧ r.opcode = .jalr ∧ r.regA = q) := by
  obtain ⟨older, younger, r, u, horder, rfl, hready, hne⟩ :=
    exists_effect_of_walked_ne (State.readReg · q) (fun _ _ => rfl) hrun h
  obtain ⟨hop, hq⟩ := writer_of_effect_readReg_ne hne
  rcases hop with hop | hop
  · rw [effectStage_of_writesAtWb hop] at horder hready
    rw [older_of_wb horder] at hready
    exact .inl ⟨r, hready, hop, hq⟩
  · rw [hop] at horder hready
    rw [older_of_rr horder] at hready
    exact .inr ⟨r, (walked_slot_rr hrun ▸ hready :), hop, hq⟩

/-- Without a BEQ or JALR that is ready in RR the walk leaves the pc. -/
theorem walked_pc_of_no_control {s : State} (hrun : s.status = .running)
    (hcontrol : ∀ r, ReadyUnfired s.slots.rr r → r.opcode ≠ .beq ∧ r.opcode ≠ .jalr) :
    (walked stageOrder s).pc = s.pc := by
  by_contra h
  obtain ⟨older, younger, r, u, horder, rfl, hready, hne⟩ := exists_effect_of_walked_ne State.pc (fun _ _ => rfl) hrun h
  have hop := control_of_effect_pc_ne hne
  have hstage : effectStage r.opcode = .rr := by rcases hop with hop | hop <;> rw [hop] <;> rfl
  rw [hstage] at horder hready
  rw [older_of_rr horder] at hready
  obtain ⟨hbeq, hjalr⟩ := hcontrol r (walked_slot_rr hrun ▸ hready :)
  exact hop.elim hbeq hjalr

/-- The data region after the walk is as the turn of ME left it, on what WB left, if WB has not ended the tick. -/
theorem walked_data {s : State} (hrun : s.status = .running) :
    (walked stageOrder s).data = if (turn .wb s).status = .running then (turn .me (turn .wb s)).data else s.data := by
  split
  next hwb =>
    rw [stageOrder, walked_cons_running hwb]
    by_cases hme : (turn .me (turn .wb s)).status = .running
    · rw [walked_cons_running hme]
      refine walked_keeps State.data (fun st hst u hu => turn_data ?_ hu) hme
      rintro rfl
      revert hst
      decide
    · rw [walked_cons_ended hme]
  next hwb =>
    rw [stageOrder, walked_cons_ended hwb]
    exact turn_data (by decide) hrun

/-! ### The refill at the end of the tick -/

/-- The refill leaves the pc, or has fetched the record it pointed at and moved it on by one. -/
theorem refill_pc_cases (s : State) :
    s.refill.pc = s.pc ∨
    (s.refill.pc = wrap16 (s.pc.toInt + 1) ∧ s.pc.toNat < s.programSize ∧
      ∃ r, s.source[s.pc.toNat]? = some r ∧
        s.refill.slots.ifetch = .occ r 0 (s.config.latency.entry r.opcode .ifetch) false) := by
  cases hif : s.slots.ifetch with
  | occ r ce cn f => exact .inl (by rw [refill_of_occupied hif])
  | empty =>
    rcases Nat.lt_or_ge s.pc.toNat s.programSize with hinside | houtside
    · obtain ⟨r, hr, hfetch⟩ := fetch_of_inside hinside
      rw [refill_of_fetched hif hfetch]
      exact .inr ⟨rfl, hinside, r, hr, rfl⟩
    · exact .inl (by rw [refill_of_outside hif houtside])

/-! ### The statements -/

/-- No tick changes the program. -/
theorem ticked_source (s : State) : (ticked s).source = s.source := by
  by_cases hrun : s.status = .running
  · rw [ticked_eq_walked State.source endTick_source hrun]
    exact walked_keeps State.source (fun st _ _ h => turn_source st h) hrun
  · rw [ticked_of_not_running hrun]

/-- No tick changes the configuration. -/
theorem ticked_config (s : State) : (ticked s).config = s.config := by
  by_cases hrun : s.status = .running
  · rw [ticked_eq_walked State.config endTick_config hrun]
    exact walked_config stageOrder hrun
  · rw [ticked_of_not_running hrun]

/-- Settles O44: no effect changes them, and nothing else in a tick does. -/
theorem programAndConfigurationNeverChange : Obligations.ProgramAndConfigurationNeverChange := by
  unfold Obligations.ProgramAndConfigurationNeverChange
  intro s t hstep
  rw [eq_ticked_of_step hstep]
  exact ⟨ticked_source s, ticked_config s⟩

/-- Settles O41: only the turn of ME can change the data region, and only by the write of a store. -/
theorem onlyAReadyStoreChangesData : Obligations.OnlyAReadyStoreChangesData := by
  unfold Obligations.OnlyAReadyStoreChangesData
  intro s t k hstep hne
  obtain rfl := eq_ticked_of_step hstep
  have hrun : s.status = .running := by
    by_contra h
    exact hne (by rw [ticked_of_not_running h])
  rw [ticked_eq_walked State.data endTick_data hrun, walked_data hrun] at hne ⊢
  split at hne
  next hwb =>
    rw [if_pos hwb]
    have hdata : (turn .wb s).data = s.data := turn_data (by decide) hrun
    have hsize : (turn .wb s).programSize = s.programSize := congrArg List.length (turn_source .wb hrun)
    have hme : (turn .wb s).slot .me = s.slot .me := turn_slot_ne hrun (by decide) nofun nofun
    rcases turn_offSlots_cases State.data (fun _ _ => rfl) .me hwb with e | ⟨r, hready, hbound, e⟩
    · exact absurd (by rw [e, hdata]) hne
    · rw [e] at hne ⊢
      obtain ⟨hop, hin, hfrom, hwrite⟩ :=
        store_of_effect_data_ne (r := r) (s := turn .wb s) fun h => hne (by rw [h, hdata])
      have hk : k = (turn .wb s).storeIndex r := by
        by_contra hother
        exact hne (by rw [hwrite, memory_read_write_ne _ _ hother, hdata])
      refine ⟨r, turn .wb s, (hme ▸ hready :), hop, processStage_eq .wb s, ?address, ?value⟩
      case address =>
        obtain ⟨-, -, hcast⟩ := inRange_bounds hin
        rw [← add_sext16_eq_wrap16]
        change ((turn .wb s).effectiveAddress r.regB r.sImmed).toInt = _
        rw [← hcast, hk, State.storeIndex, ← hsize]
        omega
      case value => rw [hwrite, hk, memory_read_write_same]
  next => exact absurd rfl hne

/-- Settles O42: the end of a tick changes no register, so the walk has. -/
theorem onlyWritersChangeRegisters : Obligations.OnlyWritersChangeRegisters := by
  unfold Obligations.OnlyWritersChangeRegisters
  intro s t q hstep hne
  obtain rfl := eq_ticked_of_step hstep
  have hrun : s.status = .running := by
    by_contra h
    exact hne (by rw [ticked_of_not_running h])
  have hend (u : State) : u.endTick.readReg q = u.readReg q := readReg_congr (endTick_regs u) q
  refine ⟨?notZero, writer_of_walked_readReg_ne hrun ?walk⟩
  case notZero =>
    rintro rfl
    exact hne (by rw [readReg_zero, readReg_zero])
  case walk => rwa [ticked_eq_walked (State.readReg · q) hend hrun] at hne

/-- Settles O43: the walk leaves the pc, and the end of the tick is the refill's case. -/
theorem onlyRefillAndControlMoveThePc : Obligations.OnlyRefillAndControlMoveThePc := by
  unfold Obligations.OnlyRefillAndControlMoveThePc
  intro s t hstep hcontrol
  obtain rfl := eq_ticked_of_step hstep
  by_cases hrun : s.status = .running
  · have hpc := walked_pc_of_no_control hrun hcontrol
    have hsource : (walked stageOrder s).source = s.source :=
      walked_keeps State.source (fun st _ _ h => turn_source st h) hrun
    have hconfig := walked_config stageOrder hrun
    rw [ticked_of_running hrun]
    split
    · have hrefill := refill_pc_cases (walked stageOrder s)
      rw [State.programSize, hpc, hsource, hconfig] at hrefill
      rw [endTick_pc, endTick_slots]
      refine hrefill.imp_right fun ⟨hnext, hinside, r, hr, hif⟩ => ⟨hnext, hinside, r, _, hr, ?_, rfl⟩
      rw [Slots.countUp, hif]
      rfl
    · exact .inl hpc
  · rw [ticked_of_not_running hrun]
    exact .inl rfl

end Sys2Proof.Machine
end

section
/-! PROOFS. 44_pipeline.md R152, R156, R166, 70_reset_and_hazards.md R215, R217: what a BEQ that becomes ready in RR
compares, and what a taken one leaves. ME and EX write no register and move no pc, so RR sees what WB has left. -/

namespace Sys2Proof.Machine

/-! ### What the turns of the other stages leave -/

@[simp] theorem afterEffect_pc (s : State) (st : Stage) (r : Record) (f : Bool) :
    (s.afterEffect st r f).pc = s.pc := by
  unfold State.afterEffect
  split
  · split <;> simp
  · rfl

@[simp] theorem afterEffect_regs (s : State) (st : Stage) (r : Record) (f : Bool) :
    (s.afterEffect st r f).regs = s.regs := by
  unfold State.afterEffect
  split
  · split <;> simp
  · rfl

/-- Only the turns of WB and RR write registers. -/
theorem turn_readReg {st : Stage} (hst : st ≠ .wb ∧ st ≠ .rr) {s : State} (hrun : s.status = .running) (q : RegIndex) :
    (turn st s).readReg q = s.readReg q := by
  rcases turn_offSlots_cases (State.readReg · q) (fun _ _ => rfl) st hrun with e | ⟨r, -, hbound, e⟩
  · exact e
  · refine e.trans (by_contra fun hne => ?_)
    obtain ⟨hop | hop, -⟩ := writer_of_effect_readReg_ne hne
    · exact hst.1 (hbound.symm.trans (effectStage_of_writesAtWb hop))
    · exact hst.2 (by rw [← hbound, hop]; rfl)

/-- Only the turn of RR moves the pc. -/
theorem turn_pc {st : Stage} (hst : st ≠ .rr) {s : State} (hrun : s.status = .running) : (turn st s).pc = s.pc := by
  rcases turn_offSlots_cases State.pc (fun _ _ => rfl) st hrun with e | ⟨r, -, hbound, e⟩
  · exact e
  · refine e.trans (by_contra fun hne => ?_)
    rcases control_of_effect_pc_ne hne with hop | hop <;> exact hst (by rw [← hbound, hop]; rfl)

/-- No effect is bound to EX or IF, so their turns leave the status. -/
theorem turn_status_of_unbound {st : Stage} (hst : ∀ op, effectStage op ≠ st) {s : State} (hrun : s.status = .running) :
    (turn st s).status = s.status := by
  rcases turn_offSlots_cases State.status (fun _ _ => rfl) st hrun with e | ⟨r, -, hbound, -⟩
  · exact e
  · exact absurd hbound (hst r.opcode)

/-- The turn of ME leaves the machine running or faults. -/
theorem turn_me_status {s : State} (hrun : s.status = .running) :
    (turn .me s).status = .running ∨ ∃ k, (turn .me s).status = .fault k := by
  rcases turn_offSlots_cases State.status (fun _ _ => rfl) .me hrun with e | ⟨r, -, hbound, e⟩
  · exact .inl (e.trans hrun)
  · rw [e]
    have happlies := applies_effect r s
    generalize effect r.instr s = t at happlies
    cases happlies with
    | write => exact .inl ((writeReg_status _ _ _).trans hrun)
    | store | nothing => exact .inl hrun
    | branch hop | link hop | halt hop => rw [hop] at hbound; cases hbound
    | fault k => exact .inr ⟨k, rfl⟩

/-- When RR has its turn in a tick that neither WB nor a fault ends, it sees the registers and the pc that WB has left,
and its own slot as it was. -/
theorem walked_before_rr {s : State} (hrun : s.status = .running) (hwb : (turn .wb s).status = .running)
    (hfault : ∀ k, (ticked s).status ≠ .fault k) :
    ∃ u, walked [.wb, .me, .ex] s = u ∧ u.status = .running ∧ u.pc = s.pc ∧
      (∀ q, u.readReg q = (turn .wb s).readReg q) ∧ u.slot .rr = s.slot .rr := by
  have hme : (turn .me (turn .wb s)).status = .running := by
    refine (turn_me_status hwb).resolve_right fun ⟨k, hk⟩ => hfault k ?_
    have hended : (turn .me (turn .wb s)).status ≠ .running := by rw [hk]; nofun
    have hwalk : walked stageOrder s = turn .me (turn .wb s) := by
      rw [stageOrder, walked_cons_running hwb, walked_cons_ended hended]
    rw [ticked_of_running hrun, hwalk, if_neg hended, hk]
  have hex : (turn .ex (turn .me (turn .wb s))).status = .running :=
    (turn_status_of_unbound (fun op => by cases op <;> decide) hme).trans hme
  have hwalk : walked [.wb, .me, .ex] s = turn .ex (turn .me (turn .wb s)) := by
    rw [walked_cons_running hwb, walked_cons_running hme, walked_cons_running hex, walked]
  refine ⟨_, hwalk, hex, ?pc, fun q => ?reg, hwalk ▸ walked_slot_rr hrun⟩
  case pc => rw [turn_pc (by decide) hme, turn_pc (by decide) hwb, turn_pc (by decide) hrun]
  case reg => rw [turn_readReg (by decide) hme, turn_readReg (by decide) hwb]

/-! ### A BEQ in RR -/

/-- The core instruction of a BEQ record. -/
theorem instr_of_opcode_beq {r : Record} (h : r.opcode = .beq) : r.instr = .beq r.regA r.regB r.sImmed := by
  simp [Record.instr, h]

/-- The effect of a taken BEQ record. -/
theorem effect_beq_taken {s : State} {r : Record} {ce cn : Nat} {f : Bool} (hop : r.opcode = .beq)
    (hrr : s.slot .rr = .occ r ce cn f) (heq : s.readReg r.regA = s.readReg r.regB) :
    effect r.instr s = s.jumpTo (wrap16 ((r.address : Int) + 1 + r.sImmed)) := by
  rw [instr_of_opcode_beq hop]
  exact effect_of_exec (exec_beq_eq_jumpTo r.sImmed hrr heq)

/-- The effect of a BEQ record that is not taken. -/
theorem effect_beq_untaken {s : State} {r : Record} (hop : r.opcode = .beq)
    (hne : s.readReg r.regA ≠ s.readReg r.regB) : effect r.instr s = s := by
  rw [instr_of_opcode_beq hop]
  exact effect_of_exec (exec_beq_of_ne r.sImmed hne)

/-- From RR's turn on: with a ready BEQ there the tick ends with the pc its effect leaves, or the next. -/
theorem ticked_pc_of_beq {s u : State} {r : Record} (hrun : s.status = .running)
    (hwalk : walked [.wb, .me, .ex] s = u) (hstill : u.status = .running) (hready : ReadyUnfired (u.slot .rr) r)
    (hop : r.opcode = .beq) :
    (ticked s).pc = (effect r.instr u).pc ∨ (ticked s).pc = wrap16 ((effect r.instr u).pc.toInt + 1) := by
  obtain ⟨ce, cn, hslot, hcount⟩ := hready
  have heffect : (effect r.instr u).status = .running := by
    by_cases heq : u.readReg r.regA = u.readReg r.regB
    · rw [effect_beq_taken hop hslot heq, jumpTo_status, hstill]
    · rw [effect_beq_untaken hop heq, hstill]
  have hturn : turn .rr u = (effect r.instr u).afterEffect .rr r false := turn_fires hslot hcount (by rw [hop]; rfl)
  have hrr : (turn .rr u).status = .running := by rw [hturn, afterEffect_status, heffect]
  have hif : (turn .ifetch (turn .rr u)).status = .running :=
    (turn_status_of_unbound (fun op => by cases op <;> decide) hrr).trans hrr
  have hall : walked stageOrder s = turn .ifetch (turn .rr u) := by
    have hcut : stageOrder = [.wb, .me, .ex] ++ [.rr, .ifetch] := rfl
    rw [hcut, walked_append _ _ hrun, hwalk, if_pos hstill, walked_cons_running hrr, walked_cons_running hif, walked]
  have hpc : (walked stageOrder s).pc = (effect r.instr u).pc := by
    rw [hall, turn_pc (by decide) hrr, hturn, afterEffect_pc]
  rw [ticked_of_running hrun, if_pos (hall ▸ hif), endTick_pc, ← hpc]
  exact (refill_pc_cases (walked stageOrder s)).imp_right fun ⟨hnext, _⟩ => hnext

/-- A BEQ that is ready in RR compares the registers as WB has left them, if neither WB nor a fault ends the tick. -/
theorem beq_compares_what_wb_left {s : State} {r : Record} (hrun : s.status = .running)
    (hwb : (turn .wb s).status = .running) (hready : ReadyUnfired s.slots.rr r) (hop : r.opcode = .beq)
    (hfault : ∀ k, (ticked s).status ≠ .fault k) :
    ((turn .wb s).readReg r.regA = (turn .wb s).readReg r.regB →
      (ticked s).pc = wrap16 ((r.address : Int) + 1 + r.sImmed) ∨
      (ticked s).pc = wrap16 ((r.address : Int) + 1 + r.sImmed + 1)) ∧
    ((turn .wb s).readReg r.regA ≠ (turn .wb s).readReg r.regB →
      (ticked s).pc = s.pc ∨ (ticked s).pc = wrap16 (s.pc.toInt + 1)) := by
  obtain ⟨u, hwalk, hstill, hpc, hreg, hslot⟩ := walked_before_rr hrun hwb hfault
  have hreadyU : ReadyUnfired (u.slot .rr) r := by
    rw [hslot]
    exact hready
  have htick := ticked_pc_of_beq hrun hwalk hstill hreadyU hop
  rw [← hreg, ← hreg]
  refine ⟨fun heq => ?taken, fun hne => ?untaken⟩
  case taken =>
    obtain ⟨ce, cn, hocc, -⟩ := hreadyU
    rwa [effect_beq_taken hop hocc heq, jumpTo_pc, wrap16_wrapped_add] at htick
  case untaken => rwa [effect_beq_untaken hop hne, hpc] at htick

/-! ### A taken BEQ alone in front of one fetched record -/

/-- A transfer leaves every slot but IF. -/
theorem jumpTo_slot_ne (s : State) (w : Word) {su : Stage} (h : su ≠ .ifetch) : (s.jumpTo w).slot su = s.slot su := by
  rw [State.slot, jumpTo_slots]
  exact Slots.get_put_ne _ _ h

/-- The turn of RR with a taken BEQ and an empty EX: the transfer, and the BEQ moves to EX. -/
theorem turn_rr_taken {s : State} {r j : Record} {ce cn : Nat} {f : Bool} (hready : ReadyUnfired s.slots.rr r)
    (hrun : s.status = .running) (hop : r.opcode = .beq) (heq : s.readReg r.regA = s.readReg r.regB)
    (hex : s.slots.ex = .empty) (hif : s.slots.ifetch = .occ j ce cn f) :
    ∃ v, turn .rr s = v ∧ v = { s with pc := wrap16 ((r.address : Int) + 1 + r.sImmed), slots := v.slots } ∧
      v.slot .ifetch = .occ bubble ce cn false ∧ v.slot .rr = .empty ∧ v.slot .ex = s.entering r .ex ∧
      v.slot .me = s.slot .me ∧ v.slot .wb = s.slot .wb := by
  obtain ⟨ce', cn', hslot, hcount⟩ := hready
  have heffect := effect_beq_taken hop hslot heq
  have hstill : (effect r.instr s).status = .running := by rw [heffect, jumpTo_status, hrun]
  obtain ⟨hframe, hleft, hentered, hother⟩ :=
    turn_fires_into_empty (st := .rr) (down := .ex) rfl hslot hcount (by rw [hop]; rfl) hex hstill
  rw [heffect] at hframe hother
  refine ⟨_, rfl, ?frame, ?fetch, hleft, hentered, ?me, ?wb⟩
  case frame => rw [hframe, jumpTo_frame, jumpTo_pc]
  case fetch =>
    rw [hother .ifetch (by decide) (by decide)]
    exact (jumpTo_squashedFetch s _).1 j ce cn f hif
  case me => rw [hother .me (by decide) (by decide), jumpTo_slot_ne s _ (by decide)]
  case wb => rw [hother .wb (by decide) (by decide), jumpTo_slot_ne s _ (by decide)]

/-- The turn of IF with a ready bubble and an empty RR. -/
theorem turn_ifetch_bubble {v : State} {ce cn : Nat} (hrun : v.status = .running)
    (hif : v.slot .ifetch = .occ bubble ce cn false) (hready : cn ≤ ce) (hrr : v.slot .rr = .empty) :
    ∃ w, turn .ifetch v = w ∧ w = { v with slots := w.slots } ∧ w.slot .ifetch = .empty ∧
      w.slot .rr = v.entering bubble .rr ∧ w.slot .ex = v.slot .ex ∧ w.slot .me = v.slot .me ∧
      w.slot .wb = v.slot .wb := by
  obtain ⟨hleft, hentered⟩ := advance_slot_moved (st := .ifetch) (down := .rr) bubble rfl hrr
  exact ⟨_, turn_moves hif hready (.inr (by decide)) hrun, advance_eq _ _ _, hleft, hentered,
    advance_slot_ne _ (by decide) nofun, advance_slot_ne _ (by decide) nofun, advance_slot_ne _ (by decide) nofun⟩

/-- An empty slot other than IF is empty at the end of the tick. -/
theorem endTick_slot_of_empty {s : State} {su : Stage} (hsu : su ≠ .ifetch) (h : s.slot su = .empty) :
    s.endTick.slot su = .empty := by
  rw [endTick_slot, refill_slot_ne s hsu, h]
  rfl

/-- A tick that ends with a slot taken leaves the machine running. -/
theorem endTick_running_of_taken {s : State} (hrun : s.status = .running) {su : Stage}
    (h : s.endTick.slot su ≠ .empty) :     s.endTick.status = .running := by
  rcases endTick_status_cases hrun with ⟨-, hall⟩ | ⟨hstill, -⟩
  · exact absurd (by rw [State.slot, hall, Slots.get_allEmpty]) h
  · exact hstill

/-! ### The statements -/

/-- Settles O50: the turn of WB leaves the registers its effect left. -/
theorem branchSeesTheWriteBackOfItsTick : Obligations.BranchSeesTheWriteBackOfItsTick := by
  unfold Obligations.BranchSeesTheWriteBackOfItsTick
  intro s v t w r hrun hw hexec hstill hbound hready hop hstep hfault
  obtain rfl := eq_ticked_of_step hstep
  obtain rfl := effect_of_exec hexec
  obtain ⟨ce, cn, hslot, hcount⟩ := hw
  have hturn : turn .wb s = (effect w.instr s).afterEffect .wb w false := turn_fires hslot hcount hbound
  have hreg (q : RegIndex) : (turn .wb s).readReg q = (effect w.instr s).readReg q :=
    readReg_congr (hturn ▸ afterEffect_regs _ _ _ _) q
  have hwb : (turn .wb s).status = .running := by rw [hturn, afterEffect_status, hstill]
  rw [← hreg, ← hreg]
  exact beq_compares_what_wb_left hrun hwb hready hop hfault

/-- Settles O51: with nothing to apply the turn of WB leaves the registers. -/
theorem branchReadsRegistersWithoutForwarding : Obligations.BranchReadsRegistersWithoutForwarding := by
  unfold Obligations.BranchReadsRegistersWithoutForwarding
  intro s t r hrun hnone hready hop hstep hfault
  obtain rfl := eq_ticked_of_step hstep
  have hkeep {α : Type} (g : State → α) (hg : ∀ s x, g { s with slots := x } = g s) : g (turn .wb s) = g s :=
    (turn_offSlots_cases g hg .wb hrun).resolve_right fun ⟨w, hw, _⟩ => hnone w hw
  have hreg (q : RegIndex) : (turn .wb s).readReg q = s.readReg q := hkeep (State.readReg · q) fun _ _ => rfl
  have hwb : (turn .wb s).status = .running := (hkeep State.status fun _ _ => rfl).trans hrun
  rw [← hreg, ← hreg]
  exact beq_compares_what_wb_left hrun hwb hready hop hfault

/-- Settles O52: WB, ME and EX do nothing, RR jumps and moves, IF moves the bubble, and the refill reads the target. -/
theorem takenBranchLeavesOneBubble : Obligations.TakenBranchLeavesOneBubble := by
  unfold Obligations.TakenBranchLeavesOneBubble
  intro s r j ce cn f hrun htable hwb hme hex hready hop heq hif hcount target
  have hempty : ∀ st ∈ [Stage.wb, .me, .ex], s.slot st = .empty := by
    simpa using ⟨hwb, hme, hex⟩
  obtain ⟨v, hv, hvframe, hvif, hvrr, hvex, hvme, hvwb⟩ := turn_rr_taken hready hrun hop heq hex hif
  have hvrun : v.status = .running := by rw [hvframe]; exact hrun
  obtain ⟨u, hu, huframe, huif, hurr, huex, hume, huwb⟩ := turn_ifetch_bubble hvrun hvif hcount hvrr
  have huframe' : u = { s with pc := target, slots := u.slots } := by rw [huframe, hvframe]
  have hurun : u.status = .running := by rw [huframe']; exact hrun
  have hconfig : v.config = s.config := by rw [hvframe]
  have hwalk : walked stageOrder s = u := by
    have hcut : stageOrder = [.wb, .me, .ex] ++ [.rr, .ifetch] := rfl
    rw [hcut, walked_append _ _ hrun, walked_of_empty hrun hempty, if_pos hrun, walked_cons_running (hv ▸ hvrun), hv,
      walked_cons_running (hu ▸ hurun), hu, walked]
  have htick : ticked s = u.endTick := ticked_of_walked hrun hwalk hurun
  have hex' : u.endTick.slot .ex = .occ r 1 (s.config.latency.entry r.opcode .ex) false :=
    endTick_slot_of_entered htable (huex.trans hvex)
  have hrr' : u.endTick.slot .rr = .occ bubble 1 (s.config.latency.entry .add .rr) false :=
    endTick_slot_of_entered htable (hurr.trans (entering_congr hconfig bubble .rr))
  have hpc : u.pc = target := by rw [huframe']
  have hsource : u.source = s.source := by rw [huframe']
  refine ⟨u.endTick, by rw [step_eq, htick], endTick_running_of_taken hurun (su := .ex) (by rw [hex']; nofun), ?regs,
    ?data,     endTick_slot_of_empty (by decide) (huwb.trans (hvwb.trans hwb)),
    endTick_slot_of_empty (by decide) (hume.trans (hvme.trans hme)), hop ▸ hex', hrr', fun houtside => ?outside,
    fun hinside => ?inside⟩
  case regs => rw [endTick_regs, huframe']
  case data => rw [endTick_data, huframe']
  case outside =>
    have hrefill : u.refill = u := refill_of_outside huif (by rwa [State.programSize, hsource, hpc])
    rw [endTick_pc, endTick_slots, hrefill]
    exact ⟨hpc, congrArg Slot.countUp huif⟩
  case inside =>
    obtain ⟨g, hg, hfetch⟩ := fetch_of_inside (s := u) (p := u.pc) (by rwa [State.programSize, hsource, hpc])
    rw [hsource, hpc] at hg
    have hconfigU : u.config = s.config := by rw [huframe']
    have hrefill := refill_of_fetched huif hfetch
    have hone : min (0 + 1) (s.config.latency.entry g.opcode .ifetch) = 1 :=
      Nat.min_eq_left (latency_pos htable g.opcode .ifetch)
    rw [endTick_pc, endTick_slots, hrefill, hpc, hconfigU]
    refine ⟨rfl, g, hg, ?_⟩
    simp only [Slots.countUp, Slot.countUp, hone]

end Sys2Proof.Machine
end

section
/-! PROOFS. 44_pipeline.md R165: a lone instruction. Its pipeline is one slot with a counter, which a tick counts up or
moves to the next stage; in WB the effect is applied, the slots are empty, and nothing is left to fetch. -/

namespace Sys2Proof.Machine

/-! ### A run is so many ticks -/

/-- A run goes on from the state a step answers. -/
theorem run_of_step (M : Host.Core) {s t : M.State} (n : Nat) (h : M.step s = .next t) :
    M.run (n + 1) s = M.run n t := by
  rw [Host.Core.run, h]

/-- The host's run of the machine is the tick, repeated. -/
theorem core_run_eq (n : Nat) (s : State) : Sys2Proof.core.run n s = .next (ticked^[n] s) := by
  induction n generalizing s with
  | zero => rfl
  | succ n ih => exact (run_of_step Sys2Proof.core n (step_eq s)).trans (ih (ticked s))

/-! ### A lone occupant -/

/-- The state with other slots and another count of cycles. -/
def State.placed (s : State) (slots : Slots) (c : Nat) : State := { s with slots := slots, cycle := c }

/-- One occupied slot. -/
def Slots.only (st : Stage) (x : Slot) : Slots := Slots.allEmpty.put st x

/-- The state at cycle `c` with the record `r` alone in the pipeline, `ce` ticks into the stage `st`. -/
def State.alone (s : State) (st : Stage) (r : Record) (ce c : Nat) : State :=
  s.placed (Slots.only st (.occ r ce (s.latencyOf r.opcode st) false)) c

theorem alone_slot_same (s : State) (st : Stage) (r : Record) (ce c : Nat) :
    (s.alone st r ce c).slot st = .occ r ce (s.latencyOf r.opcode st) false :=
  Slots.get_put_same _ _ _

theorem alone_slot_ne (s : State) {st su : Stage} (r : Record) (ce c : Nat) (h : su ≠ st) :
    (s.alone st r ce c).slot su = .empty :=
  (Slots.get_put_ne _ _ h).trans (Slots.get_allEmpty su)

/-- With nothing left to fetch the end of a tick counts the lone occupant up. -/
theorem endTick_alone {s : State} (hpc : s.programSize ≤ s.pc.toNat) (st : Stage) (r : Record) (ce c : Nat) :
    (s.alone st r ce c).endTick = s.alone st r (min (ce + 1) (s.latencyOf r.opcode st)) (c + 1) := by
  have hrefill : (s.alone st r ce c).refill = s.alone st r ce c := by
    by_cases hst : st = .ifetch
    · subst hst
      exact refill_of_occupied (alone_slot_same s .ifetch r ce c)
    · exact refill_of_outside (alone_slot_ne s r ce c (Ne.symm hst)) hpc
  have hcount : (s.alone st r ce c).slots.countUp =
      (s.alone st r (min (ce + 1) (s.latencyOf r.opcode st)) (c + 1)).slots := by
    cases st <;> rfl
  have htaken : (s.alone st r (min (ce + 1) (s.latencyOf r.opcode st)) (c + 1)).slots ≠ Slots.allEmpty := by
    intro h
    have hslot := alone_slot_same s st r (min (ce + 1) (s.latencyOf r.opcode st)) (c + 1)
    rw [State.slot, h, Slots.get_allEmpty] at hslot
    cases hslot
  unfold State.endTick
  rw [hrefill]
  dsimp only
  rw [hcount, if_neg htaken]
  rfl

/-- A tick in which the lone occupant is not ready. -/
theorem ticked_alone_waits {s : State} (hrun : s.status = .running) (hpc : s.programSize ≤ s.pc.toNat) {st : Stage}
    {r : Record} {ce : Nat} (hce : ce < s.latencyOf r.opcode st) (c : Nat) :
    ticked (s.alone st r ce c) = s.alone st r (ce + 1) (c + 1) := by
  have hwalk : walked stageOrder (s.alone st r ce c) = s.alone st r ce c := by
    refine walked_of_notReady hrun fun su _ r' ce' cn' f' h => ?_
    by_cases hsu : su = st
    · subst hsu
      rw [alone_slot_same] at h
      cases h
      exact hce
    · rw [alone_slot_ne s r ce c hsu] at h
      cases h
  rw [ticked_of_walked (s := s.alone st r ce c) hrun hwalk hrun, endTick_alone hpc, Nat.min_eq_left hce]

/-- A tick in which the lone occupant is ready and moves to the next stage. -/
theorem ticked_alone_moves {s : State} (hrun : s.status = .running) (hpc : s.programSize ≤ s.pc.toNat)
    (htable : s.config.latency.positive = true) {st down : Stage} {r : Record} (hdown : nextStage st = some down)
    (hbound : effectStage r.opcode ≠ st) (c : Nat) :
    ticked (s.alone st r (s.latencyOf r.opcode st) c) = s.alone down r 1 (c + 1) := by
  have hturn : turn st (s.alone st r (s.latencyOf r.opcode st) c) = s.alone down r 0 c := by
    rw [turn_moves (alone_slot_same s st r _ c) le_rfl (.inr hbound) hrun,
      advance_of_empty r hdown (alone_slot_ne s r _ c (nextStage_ne hdown))]
    cases st <;> cases hdown <;> rfl
  obtain ⟨older, younger, horder⟩ : ∃ older younger, stageOrder = older ++ st :: younger :=
    List.append_of_mem (by cases st <;> decide)
  have hwalk : walked stageOrder (s.alone st r (s.latencyOf r.opcode st) c) = s.alone down r 0 c := by
    have hyounger : ∀ su ∈ younger, su ≠ down := fun su hsu h =>
      (older_ne horder (nextStage_mem_older horder hdown)).2.2 (h ▸ hsu)
    have hstill : (s.alone st r (s.latencyOf r.opcode st) c).status = .running := hrun
    rw [horder, walked_append _ _ hstill,
      walked_of_empty hstill fun su hsu => alone_slot_ne s r _ c (older_ne horder hsu).1, if_pos hstill,
      walked_cons_running (by rw [hturn]; exact hrun), hturn]
    exact walked_of_empty hrun fun su hsu => alone_slot_ne s r 0 c (hyounger su hsu)
  have hone : min (0 + 1) (s.latencyOf r.opcode down) = 1 := Nat.min_eq_left (latency_pos htable r.opcode down)
  rw [ticked_of_walked (s := s.alone st r _ c) hrun hwalk hrun, endTick_alone hpc, hone]

/-- Ticks in which the lone occupant is not yet ready. -/
theorem iterate_alone_waits {s : State} (hrun : s.status = .running) (hpc : s.programSize ≤ s.pc.toNat) {st : Stage}
    {r : Record} (n : Nat) {ce : Nat} (hn : ce + n ≤ s.latencyOf r.opcode st) (c : Nat) :
    ticked^[n] (s.alone st r ce c) = s.alone st r (ce + n) (c + n) := by
  induction n generalizing ce c with
  | zero => rfl
  | succ n ih =>
    rw [Function.iterate_succ_apply, ticked_alone_waits hrun hpc (by omega), ih (by omega), Nat.add_right_comm ce 1 n,
      Nat.add_right_comm c 1 n]
    rfl

/-- From the first tick in a stage the lone occupant is ready one tick before its latency is over. -/
theorem iterate_alone_ready {s : State} (hrun : s.status = .running) (hpc : s.programSize ≤ s.pc.toNat)
    (htable : s.config.latency.positive = true) (st : Stage) (r : Record) (c : Nat) :
    ∃ n, s.latencyOf r.opcode st = n + 1 ∧
      ticked^[n] (s.alone st r 1 c) = s.alone st r (s.latencyOf r.opcode st) (c + n) := by
  obtain ⟨n, hn⟩ := Nat.exists_eq_add_of_le' (latency_pos htable r.opcode st)
  have hlatency : s.latencyOf r.opcode st = n + 1 := hn
  exact ⟨n, hlatency, by rw [iterate_alone_waits hrun hpc n (by omega), hlatency, Nat.add_comm 1 n]⟩

/-- The lone occupant passes a stage its effect is not bound to in as many ticks as the table says. -/
theorem iterate_alone_passes {s : State} (hrun : s.status = .running) (hpc : s.programSize ≤ s.pc.toNat)
    (htable : s.config.latency.positive = true) {st down : Stage} {r : Record} (hdown : nextStage st = some down)
    (hbound : effectStage r.opcode ≠ st) (c : Nat) :
    ticked^[s.latencyOf r.opcode st] (s.alone st r 1 c) = s.alone down r 1 (c + s.latencyOf r.opcode st) := by
  obtain ⟨n, hn, hready⟩ := iterate_alone_ready hrun hpc htable st r c
  have hlast : ticked^[n + 1] (s.alone st r 1 c) = s.alone down r 1 (c + (n + 1)) := by
    rw [Function.iterate_succ_apply', hready, ticked_alone_moves hrun hpc htable hdown hbound]
    rfl
  rwa [← hn] at hlast

/-! ### The effect at WB -/

theorem writeReg_placed (s : State) (slots : Slots) (c : Nat) (a : RegIndex) (v : Word) :
    (s.placed slots c).writeReg a v = (s.writeReg a v).placed slots c := by
  unfold State.writeReg
  split <;> rfl

/-- An effect at WB that leaves the machine running reads and changes neither slots nor the cycle counter. -/
theorem effect_placed {s : State} {r : Record} (hbound : effectStage r.opcode = .wb)
    (hrun : (effect r.instr s).status = .running) (slots : Slots) (c : Nat) :
    effect r.instr (s.placed slots c) = (effect r.instr s).placed slots c := by
  unfold Record.instr at hrun ⊢
  cases hop : r.opcode with
  | add | addi | nand | lui => exact writeReg_placed s slots c _ _
  | lw =>
    rw [hop] at hrun
    dsimp only [effect] at hrun ⊢
    have haddress : (s.placed slots c).effectiveAddress r.regB r.sImmed = s.effectiveAddress r.regB r.sImmed := rfl
    rcases load_cases s r.regA (s.effectiveAddress r.regB r.sImmed) with ⟨-, e⟩ | ⟨hin, e⟩
    · rw [e] at hrun
      cases hrun
    · rw [e, haddress, load_of_inRange (s := s.placed slots c) r.regA hin]
      exact writeReg_placed s slots c _ _
  | halt | fill => rw [hop] at hrun; cases hrun
  | sw | beq | jalr => rw [hop] at hbound; cases hbound

/-- With no slot taken and nothing left to fetch the end of a tick drains the machine. -/
theorem endTick_placed_allEmpty {s : State} (hpc : s.programSize ≤ s.pc.toNat) (c : Nat) :
    (s.placed Slots.allEmpty c).endTick = { s with slots := Slots.allEmpty, cycle := c + 1, status := .drained } := by
  have hrefill : (s.placed Slots.allEmpty c).refill = s.placed Slots.allEmpty c := refill_of_outside rfl hpc
  unfold State.endTick
  rw [hrefill]
  rfl

/-- The tick in which the lone occupant is ready in WB, and its effect leaves the machine running. -/
theorem ticked_alone_retires {s : State} (hrun : s.status = .running) (hpc : s.programSize ≤ s.pc.toNat) {r : Record}
    (hbound : effectStage r.opcode = .wb) (hstill : (effect r.instr s).status = .running) (c : Nat) :
    ticked (s.alone .wb r (s.latencyOf r.opcode .wb) c) =
      { effect r.instr s with slots := Slots.allEmpty, cycle := c + 1, status := .drained } := by
  have hturn : turn .wb (s.alone .wb r (s.latencyOf r.opcode .wb) c) = (effect r.instr s).placed Slots.allEmpty c := by
    rw [turn_fires (alone_slot_same s .wb r _ c) le_rfl hbound, State.alone, effect_placed hbound hstill]
    exact afterEffect_of_fired hstill hbound
  have hwalk : walked stageOrder (s.alone .wb r (s.latencyOf r.opcode .wb) c) =
      (effect r.instr s).placed Slots.allEmpty c := by
    rw [stageOrder, walked_cons_running (by rw [hturn]; exact hstill), hturn]
    exact walked_of_empty hstill fun su _ => Slots.get_allEmpty su
  have hpc' : (effect r.instr s).programSize ≤ (effect r.instr s).pc.toNat := by
    have hkeep : (effect r.instr s).pc = s.pc := by
      by_contra hne
      rcases control_of_effect_pc_ne hne with hop | hop <;> rw [hop] at hbound <;> cases hbound
    rwa [State.programSize, (effect_fixed r s).1, hkeep]
  rw [ticked_of_walked (s := s.alone .wb r _ c) hrun hwalk hstill, endTick_placed_allEmpty hpc']

/-- The tick in which a lone HALT is ready in WB. -/
theorem ticked_alone_halts {s : State} (hrun : s.status = .running) {r : Record} (hop : r.opcode = .halt) (c : Nat) :
    ticked (s.alone .wb r (s.latencyOf r.opcode .wb) c) =
      { s with slots := Slots.allEmpty, cycle := c + 1, status := .halted } := by
  have hready : ReadyUnfired (s.alone .wb r (s.latencyOf r.opcode .wb) c).slots.wb r :=
    ⟨_, _, alone_slot_same s .wb r _ c, le_rfl⟩
  exact (eq_ticked_of_step (step_of_halt_ready (s := s.alone .wb r _ c) hrun hready hop)).symm

/-! ### All the stages -/

/-- The ticks of an opcode in the four stages before WB. -/
def State.latencyBeforeWb (s : State) (op : Opcode) : Nat :=
  s.latencyOf op .ifetch + s.latencyOf op .rr + s.latencyOf op .ex + s.latencyOf op .me

/-- Ticks in four stages, one stage after the other. -/
theorem iterate_four (k l m n : Nat) (s : State) :
    ticked^[k + l + m + n] s = ticked^[n] (ticked^[m] (ticked^[l] (ticked^[k] s))) := by
  rw [Nat.add_comm (k + l + m), Function.iterate_add_apply, Nat.add_comm (k + l), Function.iterate_add_apply,
    Nat.add_comm k, Function.iterate_add_apply]

/-- A lone instruction whose effect is bound to WB comes there through the four other stages. -/
theorem iterate_alone_reaches_wb {s : State} (hrun : s.status = .running) (hpc : s.programSize ≤ s.pc.toNat)
    (htable : s.config.latency.positive = true) {r : Record} (hbound : effectStage r.opcode = .wb) (c : Nat) :
    ticked^[s.latencyBeforeWb r.opcode] (s.alone .ifetch r 1 c) =
      s.alone .wb r 1 (c + s.latencyBeforeWb r.opcode) := by
  have passes {st down : Stage} (hdown : nextStage st = some down) (hst : st ≠ .wb) (c : Nat) :
      ticked^[s.latencyOf r.opcode st] (s.alone st r 1 c) = s.alone down r 1 (c + s.latencyOf r.opcode st) :=
    iterate_alone_passes hrun hpc htable hdown (hbound ▸ hst.symm) c
  rw [State.latencyBeforeWb, iterate_four, passes rfl (by decide), passes rfl (by decide), passes rfl (by decide),
    passes rfl (by decide)]
  simp only [Nat.add_assoc]

/-- It stands ready there when all its latencies but one tick are over. -/
theorem iterate_alone_ready_in_wb {s : State} (hrun : s.status = .running) (hpc : s.programSize ≤ s.pc.toNat)
    (htable : s.config.latency.positive = true) {r : Record} (hbound : effectStage r.opcode = .wb) (c : Nat) :
    ∃ n, s.latencyBeforeWb r.opcode + s.latencyOf r.opcode .wb = n + 1 ∧
      ticked^[n] (s.alone .ifetch r 1 c) = s.alone .wb r (s.latencyOf r.opcode .wb) (c + n) := by
  obtain ⟨n, hn, hready⟩ := iterate_alone_ready hrun hpc htable .wb r (c + s.latencyBeforeWb r.opcode)
  refine ⟨n + s.latencyBeforeWb r.opcode, by omega, ?_⟩
  rw [Function.iterate_add_apply, iterate_alone_reaches_wb hrun hpc htable hbound, hready, Nat.add_assoc,
    Nat.add_comm n]

/-! ### The statement -/

/-- Settles O53: one stage after the other in as many ticks as the table says, and the effect in the last. -/
theorem loneInstructionRetiresOnTime : Obligations.LoneInstructionRetiresOnTime := by
  unfold Obligations.LoneInstructionRetiresOnTime
  intro s v r hrun htable hslots hpc hbound hexec row total
  obtain rfl := effect_of_exec hexec
  have halone : s.alone .ifetch r 1 s.cycle = s := congrArg (fun x => s.placed x s.cycle) hslots.symm
  obtain ⟨n, hn, hready⟩ := iterate_alone_ready_in_wb hrun hpc htable hbound s.cycle
  rw [halone] at hready
  have htotal : total = n + 1 := hn
  rw [core_run_eq, htotal, Function.iterate_succ_apply', hready]
  refine ⟨fun hstill => ?retires, fun hop => ?halts⟩
  case retires => rw [ticked_alone_retires hrun hpc hbound hstill]; rfl
  case halts => rw [ticked_alone_halts hrun hop]; rfl

end Sys2Proof.Machine
end
